-- ==== Sys2Proof/Word.lean ====
section
/-! DEFINITION. The word types: a byte and a 32-bit register word (spec/10_state.md R23, spec/20_memory.md R50),
and the BitStream of spec/00_scope.md R9. -/

namespace Sys2Proof

/-- One buffer byte; bit 0 is the least significant (spec/00_scope.md R8, R10). -/
abbrev Byte := BitVec 8

/-- The value of one 32-bit register (spec/10_state.md R23). -/
abbrev Word := BitVec 32

/-- A finite ordered sequence of bits, the first element first in stream order (spec/00_scope.md R9).
A codeword is a BitStream of n bits indexed by position, a data chunk one of k bits (R11, R15). -/
abbrev BitStream := List Bool

end Sys2Proof
end

