-- ==== Sys2Proof/Machine/BitStreams.lean ====
section
/-! DEFINITION. Sequences of bits and bytes: notation, unpack, pack and regrouping
(spec/00_scope.md R8 to R12, spec/42_chunk_framer_and_packing.md R140, R141, R148). -/

namespace Sys2Proof.Machine

/-- `ceil(a / b)` for `b >= 1` (spec/00_scope.md R12). -/
def ceilDiv (a b : Nat) : Nat := (a + (b - 1)) / b

/-- `zeros(m)`, m zero bits (spec/00_scope.md R9). -/
def zeros (m : Nat) : BitStream := List.replicate m false

/-- The unsigned value of a bit sequence, index 0 the least significant bit (spec/00_scope.md R8). -/
def bitsValue : BitStream → Nat
  | [] => 0
  | b :: bs => b.toNat + 2 * bitsValue bs

/-- The low `n` bits of a number as a bit sequence, bit 0 first (spec/00_scope.md R8, R11). -/
def bitsOf (n v : Nat) : BitStream := (List.range n).map v.testBit

/-- Flip the bit at one index; an index outside the sequence changes nothing. -/
def flipBit (b : BitStream) (i : Nat) : BitStream := b.modify i (!·)

/-- The bitwise exclusive-or of two words of one length (spec/41_syndrome_parity_corrector.md R123). -/
def xorBits (a b : BitStream) : BitStream := List.zipWith Bool.xor a b

/-- The first `count` groups of `k` bits, in stream order. -/
def groups (k : Nat) : Nat → BitStream → List BitStream
  | 0, _ => []
  | count + 1, b => b.take k :: groups k count (b.drop k)

/-- The eight bits of a byte, bit 0 first (spec/00_scope.md R10). -/
def unpackByte (b : Byte) : BitStream := (List.range 8).map fun i => b.getLsbD i

/-- `unpack(B)` (spec/42_chunk_framer_and_packing.md R140). -/
def unpack (bytes : List Byte) : BitStream := bytes.flatMap unpackByte

/-- The byte whose bit i is bit i of the sequence, 0 where the sequence has none. -/
def packByte (b : BitStream) : Byte := BitVec.ofNat 8 (bitsValue b)

/-- `pack(b)`: zero bits pad the final byte (spec/42_chunk_framer_and_packing.md R141). -/
def pack (b : BitStream) : List Byte := (groups 8 (ceilDiv b.length 8) b).map packByte

/-- `windows(p, n)`: a payload regrouped into n-bit words (spec/42_chunk_framer_and_packing.md R148). -/
def windows (n : Nat) (p : BitStream) : List BitStream := groups n (p.length / n) p

end Sys2Proof.Machine
end

