-- ==== Sys2Proof/Machine/Framer.lean ====
section
/-! DEFINITION. CFR, the chunk framer with padding tracking (spec/42_chunk_framer_and_packing.md R143, R146). -/

namespace Sys2Proof.Machine

/-- `frame(b, k)`: the chunks, the last one zero-padded on the right, and `last_chunk_size`; the empty input
gives no chunk and 0 (spec/42_chunk_framer_and_packing.md R143, spec/90_conflicts.md C1, C6). -/
def frame (k : Nat) (b : BitStream) : List BitStream × Nat :=
  if ceilDiv b.length k = 0 then ([], 0)
  else
    (groups k (ceilDiv b.length k) (b ++ zeros (ceilDiv b.length k * k - b.length)),
      b.length - k * (ceilDiv b.length k - 1))

/-- `unframe(chunks, k, lcs)`: drop the `k - lcs` padding bits of the last chunk, if there is a chunk
(spec/42_chunk_framer_and_packing.md R146). -/
def unframe (k lcs : Nat) (chunks : List BitStream) : BitStream :=
  if chunks.length = 0 then [] else chunks.flatten.take (chunks.length * k - (k - lcs))

end Sys2Proof.Machine
end

