-- ==== Sys2Proof/Syntax.lean ====
section
/-! DEFINITION. The commands of the block, one constructor per row of spec/opcode_table.json
(spec/30_encoding.md R71), with the CMD fields the row leaves free, used or ignored. -/

namespace Sys2Proof

/-- A command (spec/30_encoding.md R70, R71). `fix` is CMD.FIX and `n` is CMD.N; a field a command
ignores (spec/30_encoding.md R84) is kept, so that no bit of the word is dropped. -/
inductive Instr where
  /-- ENC.L1: encode `IBUF[0..ILEN)` at n = 4, k = 1; FIX is ignored. -/
  | encL1 (fix : Bool)
  /-- ENC.L2: encode `IBUF[0..ILEN)` at n = 8, k = 4; FIX is ignored. -/
  | encL2 (fix : Bool)
  /-- ENC.L3: encode `IBUF[0..ILEN)` at n = 16, k = 11; FIX is ignored. -/
  | encL3 (fix : Bool)
  /-- DEC.RAW: decode `IBUF[0..ILEN)` without correction; N is ignored. -/
  | decRaw (n : Byte)
  /-- DEC.FIX: decode `IBUF[0..ILEN)` with single-error correction; N is ignored. -/
  | decFix (n : Byte)
  /-- ENC.INV: an encode with an unsupported n, not 4, 8 or 16; FIX is ignored. -/
  | encInv (n : Byte) (fix : Bool)
  deriving DecidableEq, Repr

end Sys2Proof
end

