-- ==== Sys2Proof/WellFormed.lean ====
section
/-! DEFINITION. Which terms of Instr stand for a command word (spec/30_encoding.md R71). -/

namespace Sys2Proof

/-- The values of CMD.N the encoder supports, 4, 8 and 16 (spec/10_state.md R25, spec/30_encoding.md R84). -/
def supportedN (n : Byte) : Bool := n == 4 || n == 8 || n == 16

/-- ENC.INV is every ENC word that matches none of ENC.L1, ENC.L2, ENC.L3 (spec/30_encoding.md R71), so
its N is unsupported; every other term is well formed whatever its fields hold. -/
def Instr.wf : Instr → Bool
  | .encL1 _ => true
  | .encL2 _ => true
  | .encL3 _ => true
  | .decRaw _ => true
  | .decFix _ => true
  | .encInv n _ => !supportedN n

end Sys2Proof
end

