-- ==== Sys2Proof/Decode.lean ====
section
/-! DEFINITION. The command decoder and encoder (spec/30_encoding.md R70, R71; spec/opcode_table.json). -/

namespace Sys2Proof

/-- One row of the command table: a word `w` selects it when `w and mask = pattern` (spec/30_encoding.md R71). -/
structure OpcodeRow where
  mnemonic : String
  mask : Word
  pattern : Word
  deriving DecidableEq, Repr

/-- Why the decoder refuses an input. -/
inductive DecodeError where
  /-- The input has a bit above bit 31: a command is one 32-bit register value (spec/30_encoding.md R70, R85). -/
  | wordTooWide
  deriving DecidableEq, Repr

def rowEncL1 : OpcodeRow := ⟨"ENC.L1", 0x0000FF01, 0x00000400⟩
def rowEncL2 : OpcodeRow := ⟨"ENC.L2", 0x0000FF01, 0x00000800⟩
def rowEncL3 : OpcodeRow := ⟨"ENC.L3", 0x0000FF01, 0x00001000⟩
def rowDecRaw : OpcodeRow := ⟨"DEC.RAW", 0x00000003, 0x00000001⟩
def rowDecFix : OpcodeRow := ⟨"DEC.FIX", 0x00000003, 0x00000003⟩
def rowEncInv : OpcodeRow := ⟨"ENC.INV", 0x00000001, 0x00000000⟩

/-- The table of spec/opcode_table.json in its order; ENC.INV is the fallback row. -/
def opcodeRows : List OpcodeRow := [rowEncL1, rowEncL2, rowEncL3, rowDecRaw, rowDecFix, rowEncInv]

/-- `CMD and mask = match` (spec/30_encoding.md R71). -/
def OpcodeRow.selects (r : OpcodeRow) (w : Word) : Bool := (w &&& r.mask) == r.pattern

/-- No word selects both rows: their patterns differ on a bit both masks look at. -/
def OpcodeRow.disjoint (r t : OpcodeRow) : Bool := (r.pattern &&& t.mask) != (t.pattern &&& r.mask)

/-- Field OP, bit 0 (spec/30_encoding.md R70). -/
def wordOp (w : Word) : Bool := w.getLsbD 0

/-- Field FIX, bit 1 (spec/30_encoding.md R70). -/
def wordFix (w : Word) : Bool := w.getLsbD 1

/-- Field N, bits [15:8] (spec/30_encoding.md R70). -/
def wordN (w : Word) : Byte := w.extractLsb' 8 8

/-- The word with the given fields and every reserved bit 0 (spec/30_encoding.md R70). -/
def commandWord (op fix : Bool) (n : Byte) : Word :=
  (n.setWidth 32 <<< 8) ||| ((BitVec.ofBool fix).setWidth 32 <<< 1) ||| (BitVec.ofBool op).setWidth 32

/-- The command of a CMD value: the rows are tried in the order listed and the first match wins. Every
32-bit value selects a row, so nothing is left to refuse (spec/30_encoding.md R71). -/
def decode (w : Word) : Instr :=
  if rowEncL1.selects w then .encL1 (wordFix w)
  else if rowEncL2.selects w then .encL2 (wordFix w)
  else if rowEncL3.selects w then .encL3 (wordFix w)
  else if rowDecRaw.selects w then .decRaw (wordN w)
  else if rowDecFix.selects w then .decFix (wordN w)
  else .encInv (wordN w) (wordFix w)

/-- The decoder on a number of `nbits` bits: total, and a bit above bit 31 is refused by name. -/
def decodeBits (nbits w : Nat) : Except DecodeError Instr :=
  if w % 2 ^ nbits < 2 ^ 32 then .ok (decode (BitVec.ofNat 32 (w % 2 ^ nbits))) else .error .wordTooWide

/-- The command word of an instruction with every reserved bit 0 (spec/30_encoding.md R70, R71). -/
def encode : Instr → Word
  | .encL1 fix => commandWord false fix 4
  | .encL2 fix => commandWord false fix 8
  | .encL3 fix => commandWord false fix 16
  | .decRaw n => commandWord true false n
  | .decFix n => commandWord true true n
  | .encInv n fix => commandWord false fix n

/-- The table row an instruction stands for. -/
def Instr.row : Instr → OpcodeRow
  | .encL1 _ => rowEncL1
  | .encL2 _ => rowEncL2
  | .encL3 _ => rowEncL3
  | .decRaw _ => rowDecRaw
  | .decFix _ => rowDecFix
  | .encInv _ _ => rowEncInv

/-- The host's question: the instruction the decoder reads from bits numbered as the table numbers them.
CMD is one register word with no byte order (spec/20_memory.md R52), so bit i of `w` is bit i of CMD. -/
def decodeTableWord (nbits w : Nat) : Option Instr :=
  match decodeBits nbits w with
  | .ok i => some i
  | .error _ => none

end Sys2Proof
end

