-- ==== Sys2Proof/Config.lean ====
section
/-! DEFINITION. What an implementation fixes and what the spec leaves open: the buffer capacities
(spec/00_scope.md R7) and the free values (spec/93_implementation_defined.md U1 to U4). -/

namespace Sys2Proof

/-- The two byte buffers of the block (spec/10_state.md R31, R32). -/
inductive BufferId where
  /-- The input buffer IBUF. -/
  | ibuf
  /-- The output buffer OBUF. -/
  | obuf
  deriving DecidableEq, Repr

/-- The OPEN parameters `IBUF_BYTES` and `OBUF_BYTES` (spec/00_scope.md R7). They are an argument of the
model: State holds them as plain data, no step changes them, and statements hold for all of them (log entry 1). -/
structure Capacities where
  /-- `IBUF_BYTES`, the capacity of the input buffer in bytes. -/
  ibufBytes : Nat
  /-- `OBUF_BYTES`, the capacity of the output buffer in bytes. -/
  obufBytes : Nat
  deriving DecidableEq, Repr

/-- The least capacity, `HDR_BYTES` (spec/00_scope.md R7). -/
def Config.minCapacity : Nat := 9

/-- The greatest capacity, 2^28 (spec/00_scope.md R7). -/
def Config.maxCapacity : Nat := 268435456

/-- Both capacities lie in the range that spec/00_scope.md R7 gives them. -/
abbrev Capacities.legal (c : Capacities) : Prop :=
  (Config.minCapacity ≤ c.ibufBytes ∧ c.ibufBytes ≤ Config.maxCapacity) ∧
  (Config.minCapacity ≤ c.obufBytes ∧ c.obufBytes ≤ Config.maxCapacity)

/-- The capacities State.reset names: the greatest ones the spec allows. DESIGN CHOICE, log entry 1:
the spec leaves them open, and no statement rests on these values. -/
def Config.resetCapacities : Capacities := ⟨Config.maxCapacity, Config.maxCapacity⟩

/-- FREE VALUE (spec/93_implementation_defined.md U1, U2; log entry 4): what a host read of buffer `b` returns at
offset `a` while nothing has written that byte since reset number `era`. -/
opaque Config.unwrittenByte (b : BufferId) (era a : Nat) : Byte

/-- FREE VALUE (spec/93_implementation_defined.md U4; log entry 8): what a host read of buffer `b` returns at an
offset `a` outside the buffer; `draw` is the state's draw counter. -/
opaque Config.absentByte (b : BufferId) (draw a : Nat) : Byte

/-- FREE VALUE (spec/93_implementation_defined.md U3; log entry 7): what a host read of a buffer byte returns
while the block is BUSY, drawn afresh at every read. -/
opaque Config.busyByte (draw : Nat) : Byte

/-- FREE VALUE (spec/93_implementation_defined.md U3; log entry 7): what a host read of a register returns
while the block is BUSY, where the spec gives none, drawn afresh at every read. -/
opaque Config.busyWord (draw : Nat) : Word

end Sys2Proof
end

