-- ==== Sys2Proof/Machine/State.lean ====
section
/-! DEFINITION. The state of the block as plain data, why a step can stop, and the state after reset
(spec/10_state.md R20 to R42). -/

namespace Sys2Proof.Machine

/-- The sequencer's control state (spec/10_state.md R22). STATUS.BUSY is 1 exactly when it is `busy`. -/
inductive Phase where
  | idle
  | busy
  deriving DecidableEq, Repr

/-- CMD, index 1 (spec/10_state.md R25). Bits [7:2] and [31:16] are hardwired 0 and have no storage. -/
structure CmdReg where
  /-- OP, bit 0: false selects ENC, true DEC. -/
  op : Bool
  /-- FIX, bit 1: `should_fix`, read only by DEC. -/
  fix : Bool
  /-- N, bits [15:8]: the n requested of ENC. -/
  n : Byte
  deriving DecidableEq, Repr

/-- FRAME, index 5 (spec/10_state.md R29): the padding tracker's record of the last completed operation. -/
structure FrameReg where
  /-- LCS, bits [7:0]. -/
  lcs : Byte
  /-- N, bits [15:8]. -/
  n : Byte
  deriving DecidableEq, Repr

/-- The contents of a buffer: the bytes written since reset as (offset, byte) pairs in strictly rising
offset order. An unlisted offset has no value (spec/93_implementation_defined.md U1, U2; log entry 5). -/
abbrev Memory := List Host.Cell

/-- The canonical form of a buffer's contents: offsets strictly rising. An unlisted offset has no value, so no
entry can equal what an unlisted offset reads as. -/
abbrev Memory.wf (m : Memory) : Prop := m.Pairwise (fun c d => c.1 < d.1)

/-- One atomic host access (spec/10_state.md R37, spec/20_memory.md R55): a register by its word index,
a buffer byte by its offset. An index or offset is any number, since the transport is open (log entry 17). -/
inductive HostAccess where
  | writeReg (index : Nat) (value : Word)
  | readReg (index : Nat)
  | writeIbuf (offset : Nat) (value : Byte)
  | readIbuf (offset : Nat)
  | writeObuf (offset : Nat) (value : Byte)
  | readObuf (offset : Nat)
  deriving DecidableEq, Repr

/-- Whose turn it is (spec/10_state.md R36): the host makes an access, the sequencer takes its step if it has
one, or the reset input is asserted (spec/70_reset_and_hazards.md R240). -/
inductive Event where
  | host (a : HostAccess)
  | sequencer
  | reset
  deriving DecidableEq, Repr

/-- What a host read returned: a register word or a buffer byte (spec/20_memory.md R55). -/
inductive ReadData where
  | word (w : Word)
  | byte (b : Byte)
  deriving DecidableEq, Repr

/-- Why the model stops on a step of the block. The block's own errors are no faults: they are next
states with a code in STATUS.ERR (spec/60_exceptions.md R210, R220). -/
inductive Fault where
  /-- Raised by the COMPLETE step of an operation that reads `IBUF[offset]`, which nothing has written since
  reset: its result is unspecified (spec/70_reset_and_hazards.md R253). SAFE: the hardware goes on. A START that
  leads there is refused, so no run from reset meets it (log entry 5). -/
  | unwrittenRead (offset : Nat)
  deriving DecidableEq, Repr

/-- Why the model gives a step no meaning. -/
inductive Refusal where
  /-- Raised by an arm of `exec` for a command with no meaning yet; no arm is left that does. SAFE. -/
  | notModelled (mnemonic : String)
  /-- Raised by the START step whose operation would read `IBUF[offset]`, which nothing has written since reset:
  "A model should refuse such a START" (spec/70_reset_and_hazards.md R253, spec/93_implementation_defined.md U1).
  SAFE: the hardware goes on with an unspecified result (log entries 5, 6). -/
  | unwrittenInput (offset : Nat)
  deriving DecidableEq, Repr

/-- The whole state: what spec/10_state.md gives the block, the open parameters, and four fields of the model's own
(`events`, `rdata`, `era`, `draws`). -/
structure State where
  /-- IBUF_BYTES and OBUF_BYTES (spec/00_scope.md R7); no step changes them (log entry 1). -/
  caps : Capacities
  /-- PHASE, and with it STATUS.BUSY (spec/10_state.md R22). -/
  phase : Phase
  /-- CMD (spec/10_state.md R25). -/
  cmd : CmdReg
  /-- ILEN (spec/10_state.md R26). -/
  ilen : Word
  /-- STATUS.DONE, and with it the pin done_o (spec/10_state.md R27, R35). -/
  done : Bool
  /-- STATUS.ERR (spec/10_state.md R27). -/
  err : BitVec 4
  /-- OLEN (spec/10_state.md R28). -/
  olen : Word
  /-- FRAME (spec/10_state.md R29). -/
  frame : FrameReg
  /-- NCHUNK (spec/10_state.md R30). -/
  nchunk : Word
  /-- IBUF (spec/10_state.md R31). -/
  ibuf : Memory
  /-- OBUF (spec/10_state.md R32). -/
  obuf : Memory
  /-- The agents' turns still to come, in order (spec/10_state.md R36; log entry 2). -/
  events : List Event
  /-- The host read data: what the last host read returned (spec/10_state.md R35; log entry 3). -/
  rdata : Option ReadData
  /-- How many resets there have been: it keys the unspecified buffer contents (log entry 4). -/
  era : Nat
  /-- The draw counter: it keys the `any value` of a read (log entry 4). -/
  draws : Nat
  deriving DecidableEq, Repr

/-- The machine right after reset: the table of spec/10_state.md R42. The capacities are log entry 1,
the model's own fields log entries 2, 3 and 4. -/
def State.reset : State where
  caps := Config.resetCapacities
  phase := .idle
  cmd := ⟨false, false, 0⟩
  ilen := 0
  done := false
  err := 0
  olen := 0
  frame := ⟨0, 0⟩
  nchunk := 0
  ibuf := []
  obuf := []
  events := []
  rdata := none
  era := 0
  draws := 0

end Sys2Proof.Machine
end

