-- ==== Sys2Proof/Machine/Flags.lean ====
section
/-! DEFINITION. The flags of the block: STATUS and its error codes (spec/10_state.md R27,
spec/60_exceptions.md R211), and the pin done_o (spec/10_state.md R35). -/

namespace Sys2Proof.Machine

/-- The errors an operation can end with (spec/60_exceptions.md R211). -/
inductive ErrorCode where
  | invalidChunkSize
  | malformedHeader
  | corruptedOrTruncatedFile
  | capacityExceeded
  deriving DecidableEq, Repr

/-- The code STATUS.ERR takes (spec/60_exceptions.md R211); 0 is success. -/
def ErrorCode.code : ErrorCode → BitVec 4
  | .invalidChunkSize => 1
  | .malformedHeader => 2
  | .corruptedOrTruncatedFile => 3
  | .capacityExceeded => 4

/-- STATUS.BUSY, 1 exactly when PHASE = BUSY (spec/10_state.md R22). -/
def State.busy (s : State) : Bool := s.phase == .busy

/-- The word a read of STATUS returns: BUSY bit 0, DONE bit 1, ERR bits [7:4] (spec/10_state.md R27). -/
def State.statusWord (s : State) : Word :=
  (s.err.setWidth 32 <<< 4) ||| ((BitVec.ofBool s.done).setWidth 32 <<< 1) |||
    (BitVec.ofBool s.busy).setWidth 32

/-- The output pin done_o carries STATUS.DONE (spec/10_state.md R35). -/
def State.doneO (s : State) : Bool := s.done

end Sys2Proof.Machine
end

