-- ==== Sys2Proof/Machine/PositionMap.lean ====
section
/-! DEFINITION. PPM, the bit-position map (spec/40_bit_position_map.md R100 to R107). -/

namespace Sys2Proof.Machine

/-- The three supported codeword sizes, levels L1, L2, L3 (spec/00_scope.md R2, spec/30_encoding.md R72). -/
inductive CwSize where
  | n4
  | n8
  | n16
  deriving DecidableEq, Repr

/-- n, the number of bits of a codeword. -/
def CwSize.n : CwSize → Nat
  | .n4 => 4
  | .n8 => 8
  | .n16 => 16

/-- log2(n), the number of parity bits of a codeword (spec/00_scope.md R12). -/
def CwSize.parityBits : CwSize → Nat
  | .n4 => 2
  | .n8 => 3
  | .n16 => 4

/-- `k(n) = n - log2(n) - 1`, the number of data bits of a codeword (spec/40_bit_position_map.md R100). -/
def CwSize.k (sz : CwSize) : Nat := sz.n - sz.parityBits - 1

/-- n as the byte that CMD.N and header byte 8 hold (spec/92_eei_decisions.md D4). -/
def CwSize.toByte (sz : CwSize) : Byte := BitVec.ofNat 8 sz.n

/-- The supported size a byte names; none is the cause of InvalidChunkSize (spec/40_bit_position_map.md R107). -/
def CwSize.ofByte (b : Byte) : Option CwSize :=
  if b = 4 then some .n4 else if b = 8 then some .n8 else if b = 16 then some .n16 else none

/-- The parity positions: the exact powers of two below n (spec/30_encoding.md R73). -/
def parityPositions (sz : CwSize) : List Nat := (List.range sz.parityBits).map (2 ^ ·)

/-- `P_n`: the positions in 1..n-1 that are no exact power of two, ascending (spec/40_bit_position_map.md R101). -/
def dataPositions (sz : CwSize) : List Nat :=
  (List.range sz.n).filter fun j => j != 0 && !(parityPositions sz).contains j

/-- `ppm_scatter(n, d)` (spec/40_bit_position_map.md R104). -/
def ppmScatter (sz : CwSize) (d : BitStream) : BitStream :=
  ((dataPositions sz).zip d).foldl (fun cw p => cw.set p.1 p.2) (zeros sz.n)

/-- `ppm_gather(n, cw)` (spec/40_bit_position_map.md R105). -/
def ppmGather (sz : CwSize) (cw : BitStream) : BitStream :=
  (dataPositions sz).map fun p => cw.getD p false

end Sys2Proof.Machine
end

