-- ==== Sys2Proof/Machine/Operands.lean ====
section
/-! DEFINITION. Where an operation's operands lie: the register words and their fields (spec/10_state.md
R23 to R30) and the fields of an encoded file (spec/20_memory.md R56, spec/30_encoding.md R80). -/

namespace Sys2Proof.Machine

/-- What a write of CMD stores: OP, FIX and N; other bits are dropped (spec/10_state.md R25, R37). -/
def CmdReg.ofWord (w : Word) : CmdReg := ⟨wordOp w, wordFix w, wordN w⟩

/-- The word a read of CMD returns; reserved bits read as 0 (spec/10_state.md R23, R25). -/
def CmdReg.toWord (r : CmdReg) : Word := commandWord r.op r.fix r.n

/-- The word a read of FRAME returns: LCS in [7:0], N in [15:8] (spec/10_state.md R29). -/
def FrameReg.toWord (f : FrameReg) : Word := (f.n.setWidth 32 <<< 8) ||| f.lcs.setWidth 32

/-- The current value of register `i` while IDLE; CTRL and an index above 6 read as 0
(spec/10_state.md R23, R24, R37). -/
def State.regWord (s : State) : Nat → Word
  | 1 => s.cmd.toWord
  | 2 => s.ilen
  | 3 => s.statusWord
  | 4 => s.olen
  | 5 => s.frame.toWord
  | 6 => s.nchunk
  | _ => 0

/-- The command the CMD register holds (spec/30_encoding.md R70). -/
def State.command (s : State) : Instr := decode s.cmd.toWord

/-- `MAGIC`, ASCII "hamming" (spec/00_scope.md R7, spec/92_eei_decisions.md D17; log entry 20). -/
def magic : List Byte := [0x68, 0x61, 0x6d, 0x6d, 0x69, 0x6e, 0x67]

/-- `HDR_BYTES`, the length of the FileHeader (spec/00_scope.md R7). -/
def headerBytes : Nat := 9

/-- The FileHeader: 7-byte magic, `last_chunk_size`, `final_chunk_size` (spec/30_encoding.md R80). -/
def fileHeader (lcs : Nat) (sz : CwSize) : List Byte := magic ++ [BitVec.ofNat 8 lcs, sz.toByte]

/-- Header byte 7, `last_chunk_size`, as a number (spec/20_memory.md R56). -/
def headerLcs (y : List Byte) : Nat := (y.getD 7 0).toNat

/-- Header byte 8, `final_chunk_size` (spec/20_memory.md R56). -/
def headerN (y : List Byte) : Byte := y.getD 8 0

end Sys2Proof.Machine
end

