-- ==== Sys2Proof/Machine/Syndrome.lean ====
section
/-! DEFINITION. SYN, PBS, BFL and COR: syndrome, parity synthesis, locator and corrector
(spec/41_syndrome_parity_corrector.md R120 to R132). -/

namespace Sys2Proof.Machine

/-- `syndrome(n, cw)`: the xor of the positions whose bit is set (spec/41_syndrome_parity_corrector.md R120). -/
def syndrome (sz : CwSize) (cw : BitStream) : Nat :=
  (List.range sz.n).foldl (fun s i => if cw.getD i false then s ^^^ i else s) 0

/-- `pbs(n, cw0)`: bit b of the syndrome sets position 2^b; set, not flip
(spec/41_syndrome_parity_corrector.md R124, R126). -/
def pbs (sz : CwSize) (cw0 : BitStream) : BitStream :=
  (List.range sz.parityBits).foldl
    (fun cw b => if (syndrome sz cw0).testBit b then cw.set (2 ^ b) true else cw) cw0

/-- `cwenc(n, d) = pbs(n, ppm_scatter(n, d))` (spec/41_syndrome_parity_corrector.md R127). -/
def cwenc (sz : CwSize) (d : BitStream) : BitStream := pbs sz (ppmScatter sz d)

/-- `correct(n, cw, fix)`: with `fix`, flip the position a non-zero syndrome names
(spec/41_syndrome_parity_corrector.md R128, R132). -/
def correct (sz : CwSize) (fix : Bool) (cw : BitStream) : BitStream :=
  if fix then
    if syndrome sz cw = 0 then cw else flipBit cw (syndrome sz cw)
  else cw

/-- `cwdec(n, cw, fix) = ppm_gather(n, correct(n, cw, fix))` (spec/41_syndrome_parity_corrector.md R129). -/
def cwdec (sz : CwSize) (fix : Bool) (cw : BitStream) : BitStream := ppmGather sz (correct sz fix cw)

end Sys2Proof.Machine
end

