-- ==== Sys2Proof/Machine/Decoder.lean ====
section
/-! DEFINITION. The decoder as a pure function (spec/44_decoder.md R180 to R188). -/

namespace Sys2Proof.Machine

/-- What a successful `decode(Y, fix)` returns (spec/44_decoder.md R180). -/
structure Decoded where
  data : List Byte
  lcs : Nat
  size : CwSize
  count : Nat
  deriving DecidableEq, Repr

/-- The data bits of a payload: each window corrected if `fix`, gathered, the padding dropped
(spec/44_decoder.md R185, R186). -/
def decodedBits (sz : CwSize) (fix : Bool) (lcs : Nat) (payload : List Byte) : BitStream :=
  unframe sz.k lcs ((windows sz.n (unpack payload)).map (cwdec sz fix))

/-- `decode(Y, fix)`, its tests in the order the spec writes them (spec/44_decoder.md R180 to R184). -/
def decodeFile (fix : Bool) (y : List Byte) : Except ErrorCode Decoded :=
  if y.length < headerBytes ∨ y.take 7 ≠ magic then .error .malformedHeader
  else
    match CwSize.ofByte (headerN y) with
    | none => .error .invalidChunkSize
    | some sz =>
      if sz.k < headerLcs y then .error .malformedHeader
      else if 8 * (y.length - headerBytes) % sz.n ≠ 0 then .error .corruptedOrTruncatedFile
      else
        .ok
          { data := pack (decodedBits sz fix (headerLcs y) (y.drop headerBytes))
            lcs := headerLcs y
            size := sz
            count := 8 * (y.length - headerBytes) / sz.n }

end Sys2Proof.Machine
end

