-- ==== Sys2Proof/Machine/Encoder.lean ====
section
/-! DEFINITION. The encoder as a pure function (spec/43_encoder.md R160 to R164). -/

namespace Sys2Proof.Machine

/-- What `encode(X, n)` returns: the file Y and its by-products (spec/43_encoder.md R160). -/
structure Encoded where
  file : List Byte
  lcs : Nat
  count : Nat
  deriving DecidableEq, Repr

/-- The payload's bits: the codewords in chunk order, position 0 first (spec/43_encoder.md R160 step 3, R162). -/
def payloadBits (sz : CwSize) (chunks : List BitStream) : BitStream := chunks.flatMap (cwenc sz)

/-- `encode(X, n)` (spec/43_encoder.md R160). -/
def encodeFile (sz : CwSize) (x : List Byte) : Encoded :=
  let framed := frame sz.k (unpack x)
  { file := fileHeader framed.2 sz ++ pack (payloadBits sz framed.1)
    lcs := framed.2
    count := framed.1.length }

/-- `count = ceil(8*ILEN / k)`, the number of codewords ENC makes of `ilen` bytes (spec/30_encoding.md R82). -/
def encCount (sz : CwSize) (ilen : Nat) : Nat := ceilDiv (8 * ilen) sz.k

/-- `OLEN = 9 + ceil(count*n / 8)`, the length of ENC's result (spec/30_encoding.md R82). -/
def encLength (sz : CwSize) (ilen : Nat) : Nat := headerBytes + ceilDiv (encCount sz ilen * sz.n) 8

end Sys2Proof.Machine
end

