-- ==== Sys2Proof/Machine/Ops.lean ====
section
/-! DEFINITION. The named operations over the buffers and registers: buffer reads and writes, the operations
enc_op and dec_op, the START, COMPLETE and Reset steps, and ending with an error, the block's exception
(spec/10_state.md R31, R32, R40, R41; spec/60_exceptions.md R220; spec/70_reset_and_hazards.md R240, R241). -/

namespace Sys2Proof.Machine

/-- The byte at an offset, none where nothing has written it (spec/93_implementation_defined.md U1, U2). -/
def Memory.read : Memory → Nat → Option Byte
  | [], _ => none
  | c :: rest, a => if c.1 = a then some c.2 else Memory.read rest a

/-- Write one byte, keeping the offsets strictly rising (`MemWrite`, spec/00_scope.md R13). -/
def Memory.write : Memory → Nat → Byte → Memory
  | [], a, v => [(a, v)]
  | c :: rest, a, v =>
    if a < c.1 then (a, v) :: c :: rest
    else if a = c.1 then (a, v) :: rest
    else c :: Memory.write rest a v

/-- Write consecutive bytes from an offset on (spec/10_state.md R41). -/
def Memory.writeBytes (m : Memory) (a : Nat) : List Byte → Memory
  | [] => m
  | v :: rest => Memory.writeBytes (m.write a v) (a + 1) rest

/-- The bytes at `len` consecutive offsets from `a` on, or the first offset nothing has written
(`MemRead`, spec/00_scope.md R13; log entry 5). -/
def Memory.readBytes (m : Memory) (a : Nat) : Nat → Except Nat (List Byte)
  | 0 => .ok []
  | len + 1 =>
    match m.read a with
    | none => .error a
    | some v =>
      match Memory.readBytes m (a + 1) len with
      | .error e => .error e
      | .ok rest => .ok (v :: rest)

/-- The four fields of the result an operation returns to COMPLETE, or its error (spec/10_state.md R41). -/
inductive OpResult where
  | ok (out : List Byte) (lcs : Nat) (size : CwSize) (count : Nat)
  | err (e : ErrorCode)
  deriving DecidableEq, Repr

/-- ENC's tests, which stand before any IBUF byte is read: the size first, then the two capacities
(spec/43_encoder.md R168, R169; spec/90_conflicts.md C10). -/
def encTests (caps : Capacities) (n : Byte) (ilen : Nat) : Except ErrorCode CwSize :=
  match CwSize.ofByte n with
  | none => .error .invalidChunkSize
  | some sz =>
    if caps.ibufBytes < ilen then .error .capacityExceeded
    else if caps.obufBytes < encLength sz ilen then .error .capacityExceeded
    else .ok sz

/-- DEC's one test that stands before any IBUF byte is read (spec/44_decoder.md R190). -/
def decTests (caps : Capacities) (ilen : Nat) : Except ErrorCode Unit :=
  if caps.ibufBytes < ilen then .error .capacityExceeded else .ok ()

/-- The result of ENC on the bytes read (spec/43_encoder.md R168). -/
def encResult (sz : CwSize) (x : List Byte) : OpResult :=
  .ok (encodeFile sz x).file (encodeFile sz x).lcs sz (encodeFile sz x).count

/-- The result of DEC on the bytes read, with its output capacity test (spec/44_decoder.md R190). -/
def decResult (caps : Capacities) (fix : Bool) (y : List Byte) : OpResult :=
  match decodeFile fix y with
  | .error e => .err e
  | .ok r => if caps.obufBytes < r.data.length then .err .capacityExceeded else .ok r.data r.lcs r.size r.count

/-- `enc_op(N, ILEN, IBUF)` (spec/43_encoder.md R168); an error `a` is a read of the unwritten byte `IBUF[a]`. -/
def encOp (caps : Capacities) (n : Byte) (ilen : Nat) (ibuf : Memory) : Except Nat OpResult :=
  match encTests caps n ilen with
  | .error e => .ok (.err e)
  | .ok sz =>
    match ibuf.readBytes 0 ilen with
    | .error a => .error a
    | .ok x => .ok (encResult sz x)

/-- `dec_op(FIX, ILEN, IBUF)` (spec/44_decoder.md R190); an error `a` is a read of the unwritten byte `IBUF[a]`. -/
def decOp (caps : Capacities) (fix : Bool) (ilen : Nat) (ibuf : Memory) : Except Nat OpResult :=
  match decTests caps ilen with
  | .error e => .ok (.err e)
  | .ok () =>
    match ibuf.readBytes 0 ilen with
    | .error a => .error a
    | .ok y => .ok (decResult caps fix y)

/-- Ending with an error, the one thing all errors do (spec/60_exceptions.md R220): the code in STATUS.ERR,
OLEN, FRAME and NCHUNK 0, IDLE and DONE; OBUF, IBUF, CMD and ILEN unchanged. -/
def State.endWithError (s : State) (e : ErrorCode) : State :=
  { s with
    olen := 0
    frame := ⟨0, 0⟩
    nchunk := 0
    err := e.code
    phase := .idle
    done := true }

/-- Ending without error: exactly `OBUF[0..len(out))` is written (spec/10_state.md R32, R41). -/
def State.endWithResult (s : State) (out : List Byte) (lcs : Nat) (sz : CwSize) (count : Nat) : State :=
  { s with
    obuf := s.obuf.writeBytes 0 out
    olen := BitVec.ofNat 32 out.length
    frame := ⟨BitVec.ofNat 8 lcs, sz.toByte⟩
    nchunk := BitVec.ofNat 32 count
    err := 0
    phase := .idle
    done := true }

/-- The COMPLETE step's effect, one atomic transition (spec/10_state.md R41). -/
def State.complete (s : State) (r : Except Nat OpResult) : Host.Outcome State Fault Refusal :=
  match r with
  | .error a => .fault (.unwrittenRead a)
  | .ok (.err e) => .next (s.endWithError e)
  | .ok (.ok out lcs sz count) => .next (s.endWithResult out lcs sz count)

/-- The operation COMPLETE applies, chosen by CMD.OP (spec/10_state.md R41). -/
def State.operation (s : State) : Except Nat OpResult :=
  if s.cmd.op then decOp s.caps s.cmd.fix s.ilen.toNat s.ibuf
  else encOp s.caps s.cmd.n s.ilen.toNat s.ibuf

/-- The first unwritten byte of `IBUF[0..ILEN)` that the operation of the current CMD would read, if there is
one. An operation whose earlier tests decide the error reads no byte (spec/93_implementation_defined.md U1; log entry 6). -/
def State.unwrittenInput (s : State) : Option Nat :=
  match s.operation with
  | .error a => some a
  | .ok _ => none

/-- The START step's effect on the state (spec/10_state.md R40). -/
def State.begin (s : State) : State := { s with phase := .busy, done := false, err := 0 }

/-- The START step (spec/10_state.md R40), refused where the operation would read an unwritten byte
(spec/70_reset_and_hazards.md R253). -/
def startStep (s : State) : Host.Outcome State Fault Refusal :=
  match s.unwrittenInput with
  | some a => .refused (.unwrittenInput a)
  | none => .next s.begin

/-- Advance the draw counter: the next unspecified read is a fresh draw (log entry 4). -/
def State.tick (s : State) : State := { s with draws := s.draws + 1 }

/-- The Reset step, from any state (spec/70_reset_and_hazards.md R240, R241; spec/10_state.md R42): the capacities
are no state, the turns to come and the host's last read data are the environment's, and the buffers' unspecified
contents are those of a new era (log entries 4, 16). -/
def resetStep (s : State) : State :=
  { State.reset with
    caps := s.caps
    events := s.events
    rdata := s.rdata
    era := s.era + 1
    draws := s.draws + 1 }

end Sys2Proof.Machine
end

