-- ==== Sys2Proof/Machine/DecFamily.lean ====
section
/-! DEFINITION. The meanings of the DEC commands: dec_op at the command's FIX, committed by the COMPLETE step
(spec/44_decoder.md R190; spec/10_state.md R41). -/

namespace Sys2Proof.Machine

/-- DEC.RAW, `should_fix = false` (spec/44_decoder.md R188, R190); N is not read. -/
def execDecRaw (_n : Byte) (s : State) : Host.Outcome State Fault Refusal :=
  s.complete (decOp s.caps false s.ilen.toNat s.ibuf)

/-- DEC.FIX, `should_fix = true` (spec/44_decoder.md R190); N is not read. -/
def execDecFix (_n : Byte) (s : State) : Host.Outcome State Fault Refusal :=
  s.complete (decOp s.caps true s.ilen.toNat s.ibuf)

end Sys2Proof.Machine
end

