-- ==== Sys2Proof/Machine/EncFamily.lean ====
section
/-! DEFINITION. The meanings of the ENC commands: enc_op at the command's N, committed by the COMPLETE step
(spec/43_encoder.md R168, R169; spec/10_state.md R41). -/

namespace Sys2Proof.Machine

/-- ENC.L1, n = 4 (spec/43_encoder.md R168); FIX is not read. -/
def execEncL1 (_fix : Bool) (s : State) : Host.Outcome State Fault Refusal :=
  s.complete (encOp s.caps 4 s.ilen.toNat s.ibuf)

/-- ENC.L2, n = 8 (spec/43_encoder.md R168); FIX is not read. -/
def execEncL2 (_fix : Bool) (s : State) : Host.Outcome State Fault Refusal :=
  s.complete (encOp s.caps 8 s.ilen.toNat s.ibuf)

/-- ENC.L3, n = 16 (spec/43_encoder.md R168); FIX is not read. -/
def execEncL3 (_fix : Bool) (s : State) : Host.Outcome State Fault Refusal :=
  s.complete (encOp s.caps 16 s.ilen.toNat s.ibuf)

/-- ENC.INV (spec/43_encoder.md R169): enc_op at an unsupported N, whose first test ends it with
InvalidChunkSize; FIX is not read. -/
def execEncInv (n : Byte) (_fix : Bool) (s : State) : Host.Outcome State Fault Refusal :=
  s.complete (encOp s.caps n s.ilen.toNat s.ibuf)

end Sys2Proof.Machine
end

