-- ==== Sys2Proof/Machine/Dispatch.lean ====
section
/-! DEFINITION. What each command does at the COMPLETE step, one arm per constructor (spec/30_encoding.md R71). -/

namespace Sys2Proof.Machine

def exec (i : Instr) (s : State) : Host.Outcome State Fault Refusal :=
  match i with
  | .encL1 fix => Sys2Proof.Machine.execEncL1 fix s
  | .encL2 fix => Sys2Proof.Machine.execEncL2 fix s
  | .encL3 fix => Sys2Proof.Machine.execEncL3 fix s
  | .decRaw n => Sys2Proof.Machine.execDecRaw n s
  | .decFix n => Sys2Proof.Machine.execDecFix n s
  | .encInv n fix => Sys2Proof.Machine.execEncInv n fix s

end Sys2Proof.Machine
end

