-- ==== Sys2Proof/Machine/HostAccess.lean ====
section
/-! DEFINITION. What a host access does, while IDLE and while BUSY (spec/10_state.md R37, R38). -/

namespace Sys2Proof.Machine

/-- The capacity of a buffer (spec/10_state.md R31, R32). -/
def State.capacity (s : State) : BufferId → Nat
  | .ibuf => s.caps.ibufBytes
  | .obuf => s.caps.obufBytes

/-- The contents of a buffer. -/
def State.buffer (s : State) : BufferId → Memory
  | .ibuf => s.ibuf
  | .obuf => s.obuf

/-- The byte a host read at an offset returns while IDLE: the byte there, any value where nothing has written it
since reset (spec/93_implementation_defined.md U1, U2), any value outside the buffer (U4). -/
def State.hostByte (s : State) (b : BufferId) (a : Nat) : Byte :=
  if a < s.capacity b then
    match (s.buffer b).read a with
    | some v => v
    | none => Config.unwrittenByte b s.era a
  else Config.absentByte b s.draws a

/-- The word a read of register `i` returns while BUSY: STATUS, CMD and ILEN their value, CTRL 0, any value for
the rest (spec/10_state.md R24, R38; log entry 7). -/
def State.busyRegWord (s : State) : Nat → Word
  | 0 => 0
  | 1 => s.cmd.toWord
  | 2 => s.ilen
  | 3 => s.statusWord
  | _ => Config.busyWord s.draws

/-- A write to register `i` while IDLE (spec/10_state.md R24, R37); a write to CTRL with bit 0 set is the START step. -/
def writeRegIdle (i : Nat) (v : Word) (s : State) : Host.Outcome State Fault Refusal :=
  match i with
  | 0 => if v.getLsbD 0 then startStep s else .next s
  | 1 => .next { s with cmd := CmdReg.ofWord v }
  | 2 => .next { s with ilen := v }
  | _ => .next s

/-- A host access while PHASE = IDLE (spec/10_state.md R37). A read changes nothing but the read data; any other
access moves the draw counter on, so that two reads with no step in between agree (spec/20_memory.md R55). -/
def hostIdle (a : HostAccess) (s : State) : Host.Outcome State Fault Refusal :=
  match a with
  | .writeReg i v => writeRegIdle i v s.tick
  | .readReg i => .next { s with rdata := some (.word (s.regWord i)) }
  | .writeIbuf off v =>
    .next (if off < s.caps.ibufBytes then { s.tick with ibuf := s.ibuf.write off v } else s.tick)
  | .readIbuf off => .next { s with rdata := some (.byte (s.hostByte .ibuf off)) }
  | .writeObuf _ _ => .next s.tick
  | .readObuf off => .next { s with rdata := some (.byte (s.hostByte .obuf off)) }

/-- A host access while PHASE = BUSY (spec/10_state.md R38): every write is dropped, a read returns its value or
a value drawn afresh. -/
def hostBusy (a : HostAccess) (s : State) : State :=
  match a with
  | .writeReg _ _ => s.tick
  | .readReg i => { s.tick with rdata := some (.word (s.busyRegWord i)) }
  | .writeIbuf _ _ => s.tick
  | .readIbuf _ => { s.tick with rdata := some (.byte (Config.busyByte s.draws)) }
  | .writeObuf _ _ => s.tick
  | .readObuf _ => { s.tick with rdata := some (.byte (Config.busyByte s.draws)) }

/-- A host access (spec/10_state.md R37, R38). -/
def hostStep (a : HostAccess) (s : State) : Host.Outcome State Fault Refusal :=
  match s.phase with
  | .idle => hostIdle a s
  | .busy => .next (hostBusy a s)

end Sys2Proof.Machine
end

