-- ==== Sys2Proof/Machine/Step.lean ====
section
/-! DEFINITION. One step of the machine: the agent whose turn it is (spec/10_state.md R36, R41), and the host's
`withFetchWord`. -/

namespace Sys2Proof.Machine

/-- The sequencer's turn: COMPLETE runs the command that CMD holds while BUSY; while IDLE it has no step
(spec/10_state.md R41). -/
def sequencerStep (s : State) : Host.Outcome State Fault Refusal :=
  match s.phase with
  | .idle => .next s
  | .busy => exec s.command s.tick

/-- One step: the next turn of `events` is taken; with none left the sequencer is given its turn, so a BUSY block
completes (weak fairness, spec/10_state.md R41; log entry 2). -/
def step (s : State) : Host.Outcome State Fault Refusal :=
  match s.events with
  | [] => sequencerStep s
  | .sequencer :: rest => sequencerStep { s with events := rest }
  | .host a :: rest => hostStep a { s with events := rest }
  | .reset :: rest => .next (resetStep { s with events := rest })

/-- `s` with the command `w` in CMD and its operation begun, the sequencer's turn next: the very next step runs
that command (log entry 13). -/
def State.withFetchWord (s : State) (nbits w : Nat) : State :=
  { s.begin with
    cmd := CmdReg.ofWord (BitVec.ofNat 32 (w % 2 ^ nbits))
    events := .sequencer :: s.events }

end Sys2Proof.Machine
end

