-- ==== Sys2Proof/Machine/Channel.lean ====
section
/-! DEFINITION. The Corruptor, an environment agent that acts on an encoded buffer the host holds
(spec/45_corruptor_environment.md R200 to R203). It is no part of the block and no step of it calls it. -/

namespace Sys2Proof.Machine

/-- Flip position `draw[c]` of each n-bit window c of a payload, from window `c` on (spec/45_corruptor_environment.md R200). -/
def flipWindows (n c : Nat) : List Nat → BitStream → BitStream
  | [], p => p
  | d :: rest, p => flipWindows n (c + 1) rest (flipBit p (c * n + d))

/-- The operand conditions of `corrupt` (spec/45_corruptor_environment.md R200): outside them nothing is defined (R203). -/
def drawFits (y : List Byte) (draw : List Nat) (sz : CwSize) : Bool :=
  headerBytes ≤ y.length && 8 * (y.length - headerBytes) % sz.n == 0 &&
    draw.length == 8 * (y.length - headerBytes) / sz.n && draw.all (· < sz.n)

/-- `corrupt(Y, draw)` (spec/45_corruptor_environment.md R200); none outside its operand conditions
(spec/93_implementation_defined.md U8; log entry 18). -/
def corrupt (y : List Byte) (draw : List Nat) : Option (List Byte) :=
  match CwSize.ofByte (headerN y) with
  | none => none
  | some sz =>
    if drawFits y draw sz then
      some (y.take headerBytes ++ pack (flipWindows sz.n 0 draw (unpack (y.drop headerBytes))))
    else none

end Sys2Proof.Machine
end

