-- ==== Sys2Proof/Machine/HostProgram.lean ====
section
/-! DEFINITION. The statements of host programs as the turns they stand for (spec/30_encoding.md R93,
spec/70_reset_and_hazards.md R244, spec/45_corruptor_environment.md R204). -/

namespace Sys2Proof.Machine

/-- A host-program statement (spec/30_encoding.md R93); EXPECT asserts a state and makes no access. -/
inductive HostStmt where
  /-- Write the bytes to `IBUF[0..)` and their count to ILEN. -/
  | load (bytes : List Byte)
  /-- Write a word to CMD; `CMD <mnemonic>` is the canonical word `encode` gives. -/
  | cmd (w : Word)
  /-- Write 1 to CTRL.START. -/
  | start
  /-- Read STATUS until it shows BUSY = 0 and DONE = 1; while BUSY, `polls` reads fall before the COMPLETE step
  (log entry 21). -/
  | wait (polls : Nat)
  /-- Copy `OBUF[0..OLEN)` to `IBUF[0..OLEN)` and OLEN to ILEN. -/
  | move
  /-- Flip position `j` of window `c` of the encoded file in IBUF, by one read and one write of one byte. -/
  | flip (c j : Nat)
  deriving DecidableEq, Repr

/-- Byte writes to IBUF from an offset on. -/
def writeIbufFrom (a : Nat) : List Byte → List Event
  | [] => []
  | v :: rest => .host (.writeIbuf a v) :: writeIbufFrom (a + 1) rest

/-- The encoded-file byte that holds position `j` of codeword `c` (spec/20_memory.md R53). -/
def positionByte (n c j : Nat) : Nat := headerBytes + (c * n + j) / 8

/-- The bit of that byte (spec/20_memory.md R53). -/
def positionBit (n c j : Nat) : Nat := (c * n + j) % 8

/-- Whether FLIP `c` `j` has a meaning for a file of `ilen` bytes with codewords of size `sz`: the operand conditions of
spec/45_corruptor_environment.md R200, j below n, and c one of the payload's windows. -/
def flipFits (sz : CwSize) (ilen c j : Nat) : Bool :=
  headerBytes ≤ ilen && 8 * (ilen - headerBytes) % sz.n == 0 && j < sz.n && c < 8 * (ilen - headerBytes) / sz.n

/-- The size n of the codewords of the encoded file now in IBUF, its byte 8 (spec/45_corruptor_environment.md R200). The
host makes no access to learn it: DESIGN CHOICE, log entry 21. None where no supported size is written there, or where
ILEN exceeds the buffer. -/
def State.fileSize (s : State) : Option CwSize :=
  if s.ilen.toNat ≤ s.caps.ibufBytes then (s.ibuf.read 8).bind CwSize.ofByte else none

/-- The two turns of FLIP: the host reads one IBUF byte and writes it back with one bit inverted
(spec/45_corruptor_environment.md R204). -/
def flipTurns (s : State) (a bit : Nat) : List Event :=
  [.host (.readIbuf a), .host (.writeIbuf a (s.hostByte .ibuf a ^^^ (1 <<< bit)))]

/-- The turns of MOVE: the host reads OLEN and `OBUF[0..OLEN)`, then writes `IBUF[0..OLEN)` and ILEN
(spec/30_encoding.md R93). -/
def moveTurns (s : State) : List Event :=
  .host (.readReg 4) ::
    ((List.range s.olen.toNat).map fun a => .host (.readObuf a)) ++
    writeIbufFrom 0 ((List.range s.olen.toNat).map (s.hostByte .obuf)) ++ [.host (.writeReg 2 s.olen)]

/-- The turns of WAIT: it ends at the first STATUS read that shows BUSY = 0 and DONE = 1 (spec/30_encoding.md R93). While
BUSY `polls` reads still show BUSY, then the sequencer has its turn and the next read ends it; while IDLE with DONE = 1
the first read ends it, whatever `polls`. While IDLE with DONE = 0 every read shows DONE = 0 (spec/10_state.md R27), so
no list of turns ends it: none (log entry 21). -/
def waitTurns (s : State) (polls : Nat) : Option (List Event) :=
  match s.phase, s.done with
  | .busy, _ => some (List.replicate polls (.host (.readReg 3)) ++ [.sequencer, .host (.readReg 3)])
  | .idle, true => some [.host (.readReg 3)]
  | .idle, false => none

/-- The turns a statement stands for, in the state `s` in which it is reached; MOVE and FLIP write what their reads return
there. None where the spec gives the statement no meaning, so that nothing is claimed of it: LOAD of a count no ILEN holds,
MOVE and FLIP while BUSY, FLIP outside `flipFits` or an IBUF with no file in it (DESIGN CHOICE, log entry 21); and for a
WAIT that nothing ends. -/
def HostStmt.events (s : State) : HostStmt → Option (List Event)
  | .load bytes =>
    if bytes.length < 2 ^ 32 then
      some (writeIbufFrom 0 bytes ++ [.host (.writeReg 2 (BitVec.ofNat 32 bytes.length))])
    else none
  | .cmd w => some [.host (.writeReg 1 w)]
  | .start => some [.host (.writeReg 0 1)]
  | .wait polls => waitTurns s polls
  | .move =>
    match s.phase with
    | .idle => some (moveTurns s)
    | .busy => none
  | .flip c j =>
    match s.phase, s.fileSize with
    | .idle, some sz =>
      if flipFits sz s.ilen.toNat c j then some (flipTurns s (positionByte sz.n c j) (positionBit sz.n c j)) else none
    | _, _ => none

end Sys2Proof.Machine
end

