-- ==== Sys2Proof/Machine/Ports.lean ====
section
/-! DEFINITION. The sub-blocks as hardware modules on their internal buses: 11 data bits, 16 codeword bits, 4
syndrome bits (spec/40_bit_position_map.md R108, spec/41_syndrome_parity_corrector.md R133, decision D22). They are
internal and no step uses them; the functions of PositionMap.lean and Syndrome.lean are what is normative
(log entry 12). -/

namespace Sys2Proof.Machine

/-- The wires of a bus whose positions are below n; the others are ignored or 0 (spec/40_bit_position_map.md R108). -/
def positionMask (sz : CwSize) : BitVec 16 := BitVec.ofNat 16 (2 ^ sz.n - 1)

/-- PPM scatter: one 16-bit wiring, P_16, serves all three sizes; positions n..15 are 0 (spec/40_bit_position_map.md R108). -/
def scatterPort (sz : CwSize) (d : BitVec 11) : BitVec 16 :=
  ((dataPositions .n16).zipIdx.foldl
    (fun cw p => cw ||| ((BitVec.ofBool (d.getLsbD p.2)).setWidth 16 <<< p.1)) 0) &&& positionMask sz

/-- PPM gather: positions n..15 are ignored, bits k..10 are 0 (spec/40_bit_position_map.md R108). -/
def gatherPort (sz : CwSize) (cw : BitVec 16) : BitVec 11 :=
  (dataPositions .n16).zipIdx.foldl
    (fun d p => d ||| ((BitVec.ofBool ((cw &&& positionMask sz).getLsbD p.1)).setWidth 11 <<< p.2)) 0

/-- SYN: `s_o` from `n_i` and `cw_i`, whose positions n..15 must be 0 (spec/41_syndrome_parity_corrector.md R133, R120). -/
def synPort (sz : CwSize) (cw : BitVec 16) : BitVec 4 :=
  (List.range sz.n).foldl (fun s i => if cw.getLsbD i then s ^^^ BitVec.ofNat 4 i else s) 0

/-- PBS: `cw_o` from `n_i` and `cw0_i` (spec/41_syndrome_parity_corrector.md R133, R124). -/
def pbsPort (sz : CwSize) (cw0 : BitVec 16) : BitVec 16 :=
  (List.range sz.parityBits).foldl
    (fun cw b => if (synPort sz cw0).getLsbD b then cw ||| (1 <<< (2 ^ b)) else cw) cw0

/-- BFL `hit_o`: the syndrome is not 0 (spec/41_syndrome_parity_corrector.md R133). -/
def bflHit (s : BitVec 4) : Bool := s != 0

/-- BFL `flipmask_o`: one-hot at bit s when `hit_o`, else 0; bit 0 is never set (spec/41_syndrome_parity_corrector.md R133). -/
def bflFlipmask (s : BitVec 4) : BitVec 16 := if bflHit s then 1 <<< s.toNat else 0

/-- COR: `cw_o = cw_i xor (flipmask_i and replicate(fix_i))` (spec/41_syndrome_parity_corrector.md R133). -/
def corPort (cw flipmask : BitVec 16) (fix : Bool) : BitVec 16 :=
  cw ^^^ (flipmask &&& if fix then BitVec.allOnes 16 else 0)

end Sys2Proof.Machine
end

