-- ==== Sys2Proof/Safety.lean ====
section
/-! DEFINITION. What counts as a good state: the invariants of spec/10_state.md R27 to R32, R39 and
spec/60_exceptions.md R211, R218, in the terms the statements use. -/

namespace Sys2Proof.Machine

/-- Every listed offset of a buffer's contents lies below its capacity (spec/10_state.md R31, R32). -/
abbrev Memory.within (m : Memory) (capacity : Nat) : Prop := ∀ c ∈ m, c.1 < capacity

/-- The buffers' contents are in canonical form and inside the buffers. -/
structure State.BuffersGood (s : State) : Prop where
  ibuf_wf : s.ibuf.wf
  ibuf_within : s.ibuf.within s.caps.ibufBytes
  obuf_wf : s.obuf.wf
  obuf_within : s.obuf.within s.caps.obufBytes

/-- The invariants of STATUS (spec/10_state.md R27) and its codes (spec/60_exceptions.md R211). -/
structure State.StatusGood (s : State) : Prop where
  busy_clear : s.busy = true → s.done = false ∧ s.err = 0
  err_done : s.err ≠ 0 → s.done = true
  err_code : s.err.toNat ≤ 4

/-- The result registers: all 0 after an error and before the first completion, and in the bounds of
spec/60_exceptions.md R218; FRAME names a supported n with LCS at most k, or is all 0; and `OBUF[0..OLEN)` is
written, so a result is never partially valid (spec/10_state.md R28 to R30, R39). -/
structure State.ResultGood (s : State) : Prop where
  err_zero : s.err ≠ 0 → s.olen = 0 ∧ s.frame = ⟨0, 0⟩ ∧ s.nchunk = 0
  fresh_zero : s.busy = false → s.done = false → s.olen = 0 ∧ s.frame = ⟨0, 0⟩ ∧ s.nchunk = 0
  olen_bound : s.olen.toNat ≤ s.caps.obufBytes
  nchunk_bound : s.nchunk.toNat ≤ 2 * max s.caps.ibufBytes s.caps.obufBytes
  frame_good : (s.frame = ⟨0, 0⟩ ∧ s.nchunk = 0) ∨ ∃ sz, s.frame.n = CwSize.toByte sz ∧ s.frame.lcs.toNat ≤ sz.k
  result_written : ∀ a < s.olen.toNat, s.obuf.read a ≠ none

/-- The invariant of every reachable state: legal capacities, good buffers, STATUS and results, and while BUSY the
operation reads no byte that nothing has written (spec/70_reset_and_hazards.md R253). -/
structure State.Inv (s : State) : Prop where
  caps : s.caps.legal
  buffers : s.BuffersGood
  status : s.StatusGood
  result : s.ResultGood
  input_written : s.busy = true → s.unwrittenInput = none

/-- The operation a command is: enc_op at its N, or dec_op with its FIX (spec/10_state.md R41). -/
def operationOf (i : Instr) (s : State) : Except Nat OpResult :=
  match i with
  | .encL1 _ => encOp s.caps 4 s.ilen.toNat s.ibuf
  | .encL2 _ => encOp s.caps 8 s.ilen.toNat s.ibuf
  | .encL3 _ => encOp s.caps 16 s.ilen.toNat s.ibuf
  | .decRaw _ => decOp s.caps false s.ilen.toNat s.ibuf
  | .decFix _ => decOp s.caps true s.ilen.toNat s.ibuf
  | .encInv n _ => encOp s.caps n s.ilen.toNat s.ibuf

/-- `IBUF[0..ILEN)` is written and holds the bytes `x`. -/
def State.HasInput (s : State) (x : List Byte) : Prop := s.ibuf.readBytes 0 s.ilen.toNat = .ok x

/-- What no operation changes: the inputs IBUF, CMD and ILEN (spec/10_state.md R31, spec/43_encoder.md R165), the
capacities, and the fields of the model's own. -/
structure OperationFrame (s t : State) : Prop where
  caps : t.caps = s.caps
  cmd : t.cmd = s.cmd
  ilen : t.ilen = s.ilen
  ibuf : t.ibuf = s.ibuf
  events : t.events = s.events
  rdata : t.rdata = s.rdata
  era : t.era = s.era
  draws : t.draws = s.draws

/-- `t` is `s` after an operation that ended with the error code `code` (spec/60_exceptions.md R220): OBUF is
unchanged and the result registers are 0. -/
structure ErrorEnd (s t : State) (code : BitVec 4) : Prop where
  err : t.err = code
  olen : t.olen = 0
  frame : t.frame = ⟨0, 0⟩
  nchunk : t.nchunk = 0
  phase : t.phase = .idle
  done : t.done = true
  obuf : t.obuf = s.obuf
  rest : OperationFrame s t

/-- `t` is `s` after an operation that ended without error (spec/10_state.md R41): `OBUF[0..len(out))` holds `out`,
every other byte of OBUF is as before, and the result registers hold the true lengths and counts. -/
structure ResultEnd (s t : State) (out : List Byte) (lcs n count : Nat) : Prop where
  err : t.err = 0
  olen : t.olen.toNat = out.length
  lcs : t.frame.lcs.toNat = lcs
  n : t.frame.n.toNat = n
  nchunk : t.nchunk.toNat = count
  phase : t.phase = .idle
  done : t.done = true
  stored : ∀ a < out.length, t.obuf.read a = out[a]?
  kept : ∀ a, out.length ≤ a → t.obuf.read a = s.obuf.read a
  rest : OperationFrame s t

end Sys2Proof.Machine
end

