-- ==== Sys2Proof/Certificates/Slice0/Obligations.lean ====
section
/-! DEFINITION. The statements for the provers, in the order of OBLIGATIONS.json. -/

open Sys2Proof Sys2Proof.Machine

/-! ### The command word -/

/-- Decode and encode agree on every well-formed command, with every field at every value, and encoding what a word
decodes to gives the word with its reserved bits [7:2], [31:16] at 0 (spec/30_encoding.md R70, R71, R84). -/
def Obligations.DecodeEncodeRoundTrip : Prop :=
  (∀ i : Instr, i.wf = true → decode (encode i) = i) ∧
  (∀ w : Word, encode (decode w) = w &&& 0x0000FF03) ∧
  (∀ w : Word, (decode w).wf = true)

/-- Words written out from spec/30_encoding.md R70 and R71 decode to the commands they stand for. -/
def Obligations.WrittenWordsDecode : Prop :=
  decode 0x00000400 = .encL1 false ∧ decode 0x00000802 = .encL2 true ∧ decode 0x00001000 = .encL3 false ∧
  decode 0x00000001 = .decRaw 0 ∧ decode 0x0000FF03 = .decFix 0xFF ∧ decode 0x00000000 = .encInv 0 false ∧
  decode 0x00002000 = .encInv 32 false ∧ decode 0xFFFF08FC = .encL2 false

/-- spec/30_encoding.md R71: every word selects exactly one command, by the mask and match of its row; ENC.INV takes
every ENC word that matches none of the three levels; first match in table order gives the same selection. -/
def Obligations.EveryWordSelectsOneCommand : Prop :=
  (∀ w : Word,
    (w &&& 0x0000FF01 = 0x00000400 ↔ ∃ f, decode w = .encL1 f) ∧
    (w &&& 0x0000FF01 = 0x00000800 ↔ ∃ f, decode w = .encL2 f) ∧
    (w &&& 0x0000FF01 = 0x00001000 ↔ ∃ f, decode w = .encL3 f) ∧
    (w &&& 0x00000003 = 0x00000001 ↔ ∃ n, decode w = .decRaw n) ∧
    (w &&& 0x00000003 = 0x00000003 ↔ ∃ n, decode w = .decFix n) ∧
    (w &&& 0x00000001 = 0 ∧ w &&& 0x0000FF01 ≠ 0x00000400 ∧ w &&& 0x0000FF01 ≠ 0x00000800 ∧
      w &&& 0x0000FF01 ≠ 0x00001000 ↔ ∃ n f, decode w = .encInv n f) ∧
    opcodeRows.find? (·.selects w) = some (decode w).row) ∧
  encode (.encL1 false) = 0x00000400 ∧ encode (.encL2 false) = 0x00000800 ∧ encode (.encL3 false) = 0x00001000 ∧
  encode (.decRaw 0) = 0x00000001 ∧ encode (.decFix 0) = 0x00000003

/-! ### Steps -/

/-- A step of a BUSY block whose sequencer has its turn is exec of the command decoded from CMD; around exec the step
takes the turn off `events` and moves the draw counter (log entries 2, 4). After `withFetchWord` the very next step
does so. While IDLE the sequencer has no step (spec/10_state.md R41, spec/60_exceptions.md R231). -/
def Obligations.StepRunsDecodedCommand : Prop :=
  (∀ s : State, s.phase = .busy → s.events = [] →
    step s = exec (decode s.cmd.toWord) { s with draws := s.draws + 1 }) ∧
  (∀ (s : State) (rest : List Event), s.phase = .busy → s.events = .sequencer :: rest →
    step s = exec (decode s.cmd.toWord) { s with events := rest, draws := s.draws + 1 }) ∧
  (∀ (s : State) (nbits w : Nat), w < 2 ^ nbits → w < 2 ^ 32 →
    step (s.withFetchWord nbits w) =
      exec (decode (BitVec.ofNat 32 w))
        { s with
          cmd := CmdReg.ofWord (BitVec.ofNat 32 w), phase := .busy, done := false, err := 0, draws := s.draws + 1 }) ∧
  (∀ s : State, s.phase = .idle → s.events = [] → step s = .next s) ∧
  (∀ (s : State) (rest : List Event), s.phase = .idle → s.events = .sequencer :: rest →
    step s = .next { s with events := rest })

/-- spec/10_state.md R41: COMPLETE applies enc_op(CMD.N, ILEN, IBUF) when OP = 0 and dec_op(CMD.FIX, ILEN, IBUF) when
OP = 1 and commits its result or error in one step; where the operation reads an unwritten byte, the model faults
(log entry 5). -/
def Obligations.CompleteAppliesOperationOfCmd : Prop :=
  ∀ (s : State) (rest : List Event) (r : Except Nat OpResult),
    s.phase = .busy → (s.events = .sequencer :: rest ∨ (s.events = [] ∧ rest = [])) →
    r = (if s.cmd.op = true then decOp s.caps s.cmd.fix s.ilen.toNat s.ibuf
      else encOp s.caps s.cmd.n s.ilen.toNat s.ibuf) →
    (∀ out lcs sz count, r = .ok (.ok out lcs sz count) →
      step s = .next { s with
        obuf := s.obuf.writeBytes 0 out, olen := BitVec.ofNat 32 out.length,
        frame := ⟨BitVec.ofNat 8 lcs, BitVec.ofNat 8 sz.n⟩, nchunk := BitVec.ofNat 32 count,
        err := 0, phase := .idle, done := true, events := rest, draws := s.draws + 1 }) ∧
    (∀ e, r = .ok (.err e) →
      step s = .next { s with
        olen := 0, frame := ⟨0, 0⟩, nchunk := 0, err := e.code,
        phase := .idle, done := true, events := rest, draws := s.draws + 1 }) ∧
    (∀ a, r = .error a → step s = .fault (.unwrittenRead a))

/-- spec/10_state.md R40: a write of 1 to CTRL.START while IDLE begins an operation, whatever the other bits of the
word, and changes nothing else. The model accepts it where the operation reads no unwritten byte (log entry 6): so where
`IBUF[0..ILEN)` is written (spec/70_reset_and_hazards.md R243), and, whatever IBUF holds, where CMD is an ENC with an
unsupported N (spec/43_encoder.md R169) or ILEN exceeds IBUF_BYTES (spec/93_implementation_defined.md U1). -/
def Obligations.StartBeginsOperation : Prop :=
  (∀ (s : State) (v : Word) (rest : List Event),
    s.phase = .idle → s.events = .host (.writeReg 0 v) :: rest → v.getLsbD 0 = true → s.unwrittenInput = none →
    step s = .next { s with
      phase := .busy, done := false, err := 0, events := rest, draws := s.draws + 1 }) ∧
  (∀ s : State,
    ((∀ a < s.ilen.toNat, s.ibuf.read a ≠ none) ∨ (s.cmd.op = false ∧ supportedN s.cmd.n = false) ∨
      s.caps.ibufBytes < s.ilen.toNat) →
    s.unwrittenInput = none)

/-- spec/70_reset_and_hazards.md R253 and spec/93_implementation_defined.md U1: a START is refused exactly where the
operation passes the tests that stand before its reads and `IBUF[0..ILEN)` has an unwritten byte; the refusal names
the first one (log entry 6). Everywhere else it begins the operation (spec/10_state.md R40). -/
def Obligations.StartRefusedOnUnwrittenInput : Prop :=
  ∀ (s : State) (v : Word) (rest : List Event) (reads : Prop),
    s.phase = .idle → s.events = .host (.writeReg 0 v) :: rest → v.getLsbD 0 = true →
    (reads ↔ s.ilen.toNat ≤ s.caps.ibufBytes ∧
      (s.cmd.op = true ∨ ∃ sz, s.cmd.n = BitVec.ofNat 8 (CwSize.n sz) ∧
        encLength sz s.ilen.toNat ≤ s.caps.obufBytes)) →
    (reads → (∃ a < s.ilen.toNat, s.ibuf.read a = none) →
      ∃ a < s.ilen.toNat, s.ibuf.read a = none ∧ (∀ b < a, s.ibuf.read b ≠ none) ∧
        step s = .refused (.unwrittenInput a)) ∧
    (¬ reads ∨ (∀ a < s.ilen.toNat, s.ibuf.read a ≠ none) →
      step s = .next { s with
        phase := .busy, done := false, err := 0, events := rest, draws := s.draws + 1 })

/-! ### Host accesses -/

/-- spec/10_state.md R24, R37: what a register write does while IDLE: CTRL with START = 0 nothing, CMD its three
fields, ILEN the word, any other index nothing; a write of OBUF is ignored. -/
def Obligations.IdleRegisterWrites : Prop :=
  ∀ (s : State) (v : Word) (rest : List Event) (i : Nat), s.phase = .idle →
    (s.events = .host (.writeReg i v) :: rest →
      (i = 0 → v.getLsbD 0 = false → step s = .next { s with events := rest, draws := s.draws + 1 }) ∧
      (i = 1 → ∃ c : CmdReg, c.op = v.getLsbD 0 ∧ c.fix = v.getLsbD 1 ∧
        (∀ j < 8, c.n.getLsbD j = v.getLsbD (8 + j)) ∧
        step s = .next { s with cmd := c, events := rest, draws := s.draws + 1 }) ∧
      (i = 2 → step s = .next { s with ilen := v, events := rest, draws := s.draws + 1 }) ∧
      (3 ≤ i → step s = .next { s with events := rest, draws := s.draws + 1 })) ∧
    (∀ (a : Nat) (b : Byte), s.events = .host (.writeObuf a b) :: rest →
      step s = .next { s with events := rest, draws := s.draws + 1 })

/-- spec/10_state.md R25: a word written to CMD while IDLE is read back with bits [7:2] and [31:16] at 0. -/
def Obligations.CmdReadsBackMasked : Prop :=
  ∀ (s : State) (v : Word) (rest : List Event), s.phase = .idle →
    s.events = .host (.writeReg 1 v) :: .host (.readReg 1) :: rest →
    ∃ t u, step s = .next t ∧ step t = .next u ∧ u.rdata = some (.word (v &&& 0x0000FF03)) ∧ u.cmd = t.cmd

/-- spec/70_reset_and_hazards.md R250: every write while BUSY, a second START among them, is lost and not queued. -/
def Obligations.BusyWritesDropped : Prop :=
  ∀ (s : State) (a : HostAccess) (rest : List Event), s.phase = .busy → s.events = .host a :: rest →
    ((∃ i v, a = .writeReg i v) ∨ (∃ off v, a = .writeIbuf off v) ∨ (∃ off v, a = .writeObuf off v)) →
    step s = .next { s with events := rest, draws := s.draws + 1 }

/-- spec/10_state.md R38, spec/93_implementation_defined.md U3: while BUSY a read of STATUS, CMD or ILEN returns its
value and CTRL reads as 0; any other read returns a value drawn afresh, which the model leaves free (log entry 7: so
also for an index above 6, where the spec is silent). The block's state does not change. -/
def Obligations.BusyReads : Prop :=
  ∀ (s : State) (rest : List Event), s.phase = .busy →
    (∀ i, s.events = .host (.readReg i) :: rest →
      step s = .next { s with
        events := rest, draws := s.draws + 1
        rdata := some (.word (if i = 0 then 0 else if i = 1 then s.cmd.toWord else if i = 2 then s.ilen
          else if i = 3 then s.statusWord else Config.busyWord s.draws)) }) ∧
    (∀ a, (s.events = .host (.readIbuf a) :: rest ∨ s.events = .host (.readObuf a) :: rest) →
      step s = .next { s with
        events := rest, draws := s.draws + 1, rdata := some (.byte (Config.busyByte s.draws)) }) ∧
    s.statusWord.toNat = 1 + 2 * s.done.toNat + 16 * s.err.toNat ∧ (s.StatusGood → s.statusWord = 1)

/-- spec/20_memory.md R55: reading any register or buffer byte changes no state of the block, while IDLE and while
BUSY, and reading twice with no step in between returns the same value while IDLE. That this covers a buffer byte nothing
has written and an offset outside a buffer is the model's deduction (log entries 4 and 8, DEDUCED). -/
def Obligations.ReadsChangeNoState : Prop :=
  ∀ (s : State) (a : HostAccess) (rest : List Event),
    ((∃ i, a = .readReg i) ∨ (∃ off, a = .readIbuf off) ∨ (∃ off, a = .readObuf off)) →
    (s.events = .host a :: rest →
      ∃ d k, step s = .next { s with events := rest, rdata := some d, draws := k }) ∧
    (s.phase = .idle → s.events = .host a :: .host a :: rest →
      ∃ t u, step s = .next t ∧ step t = .next u ∧ t.rdata = u.rdata ∧ t.rdata ≠ none)

/-- spec/10_state.md R37: a byte written to IBUF inside the buffer is read back and no other byte changes; a write
outside the buffer is ignored. -/
def Obligations.IbufWriteReadsBack : Prop :=
  ∀ (s : State) (a b : Nat) (v : Byte) (rest : List Event), s.phase = .idle →
    s.events = .host (.writeIbuf a v) :: .host (.readIbuf b) :: rest →
    ∃ t u, step s = .next t ∧ step t = .next u ∧
      t = { s with ibuf := t.ibuf, events := .host (.readIbuf b) :: rest, draws := s.draws + 1 } ∧
      (s.caps.ibufBytes ≤ a → t.ibuf = s.ibuf) ∧
      (∀ c, c ≠ a → t.ibuf.read c = s.ibuf.read c) ∧
      (a < s.caps.ibufBytes → b = a → u.rdata = some (.byte v)) ∧
      (∀ w, b ≠ a → b < s.caps.ibufBytes → s.ibuf.read b = some w → u.rdata = some (.byte w))

/-- spec/10_state.md R37 and spec/93_implementation_defined.md U1, U2, U4: a host read of a buffer byte while IDLE
returns the byte, or a free value where nothing has written it or no byte is there (log entries 4, 8). -/
def Obligations.IdleBufferReads : Prop :=
  ∀ (s : State) (a : Nat) (rest : List Event), s.phase = .idle →
    (s.events = .host (.readIbuf a) :: rest →
      step s = .next { s with
        events := rest
        rdata := some (.byte (if a < s.caps.ibufBytes then (s.ibuf.read a).getD (Config.unwrittenByte .ibuf s.era a)
          else Config.absentByte .ibuf s.draws a)) }) ∧
    (s.events = .host (.readObuf a) :: rest →
      step s = .next { s with
        events := rest
        rdata := some (.byte (if a < s.caps.obufBytes then (s.obuf.read a).getD (Config.unwrittenByte .obuf s.era a)
          else Config.absentByte .obuf s.draws a)) })

/-- spec/10_state.md R23 to R30: the word a host read of register i returns while IDLE, field by field; CTRL and every
index above 6 read as 0; done_o carries STATUS.DONE (R35). -/
def Obligations.RegisterWordLayout : Prop :=
  ∀ (s : State) (i : Nat) (rest : List Event), s.phase = .idle → s.events = .host (.readReg i) :: rest →
    ∃ w : Word, step s = .next { s with events := rest, rdata := some (.word w) } ∧
      (i = 0 → w = 0) ∧
      (i = 1 → w.toNat = s.cmd.op.toNat + 2 * s.cmd.fix.toNat + 256 * s.cmd.n.toNat) ∧
      (i = 2 → w = s.ilen) ∧
      (i = 3 → w.toNat = 2 * s.done.toNat + 16 * s.err.toNat ∧ s.doneO = w.getLsbD 1) ∧
      (i = 4 → w = s.olen) ∧
      (i = 5 → w.toNat = s.frame.lcs.toNat + 256 * s.frame.n.toNat) ∧
      (i = 6 → w = s.nchunk) ∧
      (6 < i → w = 0)

/-- spec/10_state.md R42: after reset every piece of state has the value in the table: in State.reset, and after a
Reset step from any state (spec/70_reset_and_hazards.md R240, R241), BUSY or not; no byte of a buffer has a value. -/
def Obligations.ResetLeavesTableValues : Prop :=
  ∀ t : State,
    (t = State.reset ∨
      ∃ (s : State) (rest : List Event), s.events = .reset :: rest ∧ step s = .next t) →
    t.phase = .idle ∧ t.cmd = ⟨false, false, 0⟩ ∧ t.ilen = 0 ∧ t.busy = false ∧ t.done = false ∧ t.err = 0 ∧
      t.olen = 0 ∧ t.frame = ⟨0, 0⟩ ∧ t.nchunk = 0 ∧ t.doneO = false ∧
      (∀ a, t.ibuf.read a = none) ∧ (∀ a, t.obuf.read a = none)

/-! ### Invariants and whole-machine rules -/

/-- The invariant holds at reset (for the capacities log entry 1 names, the model's choice). -/
def Obligations.ResetStateGood : Prop := State.reset.Inv

/-- Every step keeps the invariant: legal capacities, canonical buffers, the STATUS invariants of spec/10_state.md R27,
results never partially valid (R39) and in the bounds of spec/60_exceptions.md R218, inputs written while BUSY. -/
def Obligations.StepKeepsInvariant : Prop :=
  ∀ s t : State, s.Inv → step s = .next t → t.Inv

/-- From a good state no step faults, and a step is refused only where it is a START whose operation would read an
unwritten byte (spec/70_reset_and_hazards.md R253; log entries 5, 6). -/
def Obligations.GoodStateNeverFaults : Prop :=
  ∀ s : State, s.Inv → (∀ f, step s ≠ .fault f) ∧
    ∀ r, step s = .refused r → s.phase = .idle ∧
      ∃ a v rest, r = .unwrittenInput a ∧ s.events = .host (.writeReg 0 v) :: rest ∧ v.getLsbD 0 = true ∧
        a < s.ilen.toNat ∧ s.ibuf.read a = none

/-- spec/60_exceptions.md R222, spec/10_state.md R27: while IDLE, DONE and ERR change only by a START or a reset. -/
def Obligations.IndicationClearedOnlyByStartOrReset : Prop :=
  ∀ s t : State, s.phase = .idle → step s = .next t → (t.done ≠ s.done ∨ t.err ≠ s.err) →
    (∃ v rest, s.events = .host (.writeReg 0 v) :: rest ∧ v.getLsbD 0 = true ∧ t.phase = .busy) ∨
    (∃ rest, s.events = .reset :: rest)

/-- spec/10_state.md R28, R29, R30, R32: OLEN, FRAME, NCHUNK and OBUF are written only by COMPLETE (and cleared by
reset): no host access and no START changes them. -/
def Obligations.ResultsWrittenOnlyByComplete : Prop :=
  ∀ s t : State, step s = .next t →
    (t.olen ≠ s.olen ∨ t.frame ≠ s.frame ∨ t.nchunk ≠ s.nchunk ∨ t.obuf ≠ s.obuf) →
    (s.phase = .busy ∧ t.phase = .idle ∧ (s.events = [] ∨ ∃ rest, s.events = .sequencer :: rest)) ∨
    (∃ rest, s.events = .reset :: rest)

/-- spec/10_state.md R38: the operation's inputs, CMD, ILEN and IBUF, are the same at COMPLETE as at START: no step but
a reset changes them while BUSY, and COMPLETE leaves them too. -/
def Obligations.InputsStableWhileBusy : Prop :=
  ∀ s t : State, s.phase = .busy → step s = .next t → (∀ rest, s.events ≠ .reset :: rest) →
    t.cmd = s.cmd ∧ t.ilen = s.ilen ∧ t.ibuf = s.ibuf ∧ t.caps = s.caps

/-! ### The ENC commands -/

/-- ENC.L1 completes on every written input that fits both capacities: OBUF gets the encoded file, OLEN = 9 + 4*ILEN,
NCHUNK = 8*ILEN, FRAME = (1, 4) or (0, 4) for the empty input (spec/43_encoder.md R168, spec/30_encoding.md R82). -/
def Obligations.EncL1EncodesInput : Prop :=
  ∀ (s : State) (fix : Bool) (x : List Byte), s.caps.legal → s.HasInput x →
    s.ilen.toNat ≤ s.caps.ibufBytes → 9 + 4 * s.ilen.toNat ≤ s.caps.obufBytes →
    ∃ t, exec (.encL1 fix) s = .next t ∧ t.olen.toNat = 9 + 4 * s.ilen.toNat ∧
      ResultEnd s t (encodeFile .n4 x).file (if s.ilen.toNat = 0 then 0 else 1) 4 (8 * s.ilen.toNat)

/-- ENC.L2 completes on every written input that fits both capacities: OBUF gets the encoded file, OLEN = 9 + 2*ILEN,
NCHUNK = 2*ILEN, FRAME = (4, 8) or (0, 8) for the empty input (spec/43_encoder.md R168, spec/30_encoding.md R82). -/
def Obligations.EncL2EncodesInput : Prop :=
  ∀ (s : State) (fix : Bool) (x : List Byte), s.caps.legal → s.HasInput x →
    s.ilen.toNat ≤ s.caps.ibufBytes → 9 + 2 * s.ilen.toNat ≤ s.caps.obufBytes →
    ∃ t, exec (.encL2 fix) s = .next t ∧ t.olen.toNat = 9 + 2 * s.ilen.toNat ∧
      ResultEnd s t (encodeFile .n8 x).file (if s.ilen.toNat = 0 then 0 else 4) 8 (2 * s.ilen.toNat)

/-- ENC.L3 completes on every written input that fits both capacities: OBUF gets the encoded file, NCHUNK is the least
count with 11*count >= 8*ILEN, OLEN = 9 + 2*NCHUNK, LCS = 8*ILEN - 11*(NCHUNK - 1), 0 for the empty input
(spec/43_encoder.md R168, spec/30_encoding.md R82). -/
def Obligations.EncL3EncodesInput : Prop :=
  ∀ (s : State) (fix : Bool) (x : List Byte) (count : Nat), s.caps.legal → s.HasInput x →
    8 * s.ilen.toNat ≤ 11 * count → 11 * count < 8 * s.ilen.toNat + 11 →
    s.ilen.toNat ≤ s.caps.ibufBytes → 9 + 2 * count ≤ s.caps.obufBytes →
    ∃ t, exec (.encL3 fix) s = .next t ∧ t.olen.toNat = 9 + 2 * count ∧
      ResultEnd s t (encodeFile .n16 x).file (8 * s.ilen.toNat - 11 * (count - 1)) 16 count

/-- spec/43_encoder.md R169: ENC.INV ends with InvalidChunkSize whatever ILEN and IBUF hold, so before any capacity
test and any read of IBUF; OBUF is not written and OLEN is 0; CMD = 0x00002000 (N = 32) is such a command. -/
def Obligations.EncInvEndsInvalidChunkSize : Prop :=
  (∀ (s : State) (n : Byte) (fix : Bool), n ≠ 4 → n ≠ 8 → n ≠ 16 →
    ∃ t, exec (.encInv n fix) s = .next t ∧ ErrorEnd s t 1) ∧
  decode 0x00002000 = .encInv 32 false

/-- spec/60_exceptions.md R218 (a), (b), R219: a supported ENC whose input or whose result exceeds its capacity ends
with CapacityExceeded, whatever IBUF holds. -/
def Obligations.EncCapacityExceeded : Prop :=
  ∀ (s : State) (fix : Bool),
    (s.caps.ibufBytes < s.ilen.toNat ∨ s.caps.obufBytes < 9 + 4 * s.ilen.toNat →
      ∃ t, exec (.encL1 fix) s = .next t ∧ ErrorEnd s t 4) ∧
    (s.caps.ibufBytes < s.ilen.toNat ∨ s.caps.obufBytes < 9 + 2 * s.ilen.toNat →
      ∃ t, exec (.encL2 fix) s = .next t ∧ ErrorEnd s t 4) ∧
    (s.caps.ibufBytes < s.ilen.toNat ∨ s.caps.obufBytes < 9 + 2 * ((8 * s.ilen.toNat + 10) / 11) →
      ∃ t, exec (.encL3 fix) s = .next t ∧ ErrorEnd s t 4)

/-! ### The DEC commands -/

/-- DEC.RAW and DEC.FIX complete on every written input whose header and length pass the tests and whose result fits
OBUF: the payload's windows, corrected by DEC.FIX only, give OBUF; OLEN = ceil((count*k - (k - lcs)) / 8), 0 for no
window; FRAME holds the parsed header fields and NCHUNK the window count (spec/44_decoder.md R190). -/
def Obligations.DecDecodesInput : Prop :=
  ∀ (s : State) (n : Byte) (y : List Byte) (sz : CwSize) (lcs count outLen : Nat),
    s.caps.legal → s.HasInput y → s.ilen.toNat ≤ s.caps.ibufBytes → 9 ≤ s.ilen.toNat →
    y.take 7 = [0x68, 0x61, 0x6d, 0x6d, 0x69, 0x6e, 0x67] →
    y[7]? = some (BitVec.ofNat 8 lcs) → y[8]? = some (BitVec.ofNat 8 sz.n) → lcs ≤ sz.k →
    8 * (s.ilen.toNat - 9) = count * sz.n →
    outLen = (if count = 0 then 0 else (count * sz.k - (sz.k - lcs) + 7) / 8) → outLen ≤ s.caps.obufBytes →
    (∃ t, exec (.decRaw n) s = .next t ∧ t.olen.toNat = outLen ∧
      ResultEnd s t (pack (decodedBits sz false lcs (y.drop 9))) lcs sz.n count) ∧
    (∃ t, exec (.decFix n) s = .next t ∧ t.olen.toNat = outLen ∧
      ResultEnd s t (pack (decodedBits sz true lcs (y.drop 9))) lcs sz.n count)

/-- spec/60_exceptions.md R219 for DEC, one clause per test in the order of test: each clause assumes that the tests
before it pass. -/
def Obligations.DecErrorsInOrder : Prop :=
  ∀ (s : State) (n : Byte) (i : Instr), (i = .decRaw n ∨ i = .decFix n) →
    (s.caps.ibufBytes < s.ilen.toNat → ∃ t, exec i s = .next t ∧ ErrorEnd s t 4) ∧
    (∀ y, s.ilen.toNat ≤ s.caps.ibufBytes → s.HasInput y →
      (s.ilen.toNat < 9 ∨ y.take 7 ≠ magic → ∃ t, exec i s = .next t ∧ ErrorEnd s t 2) ∧
      (9 ≤ s.ilen.toNat → y.take 7 = magic →
        (supportedN (headerN y) = false → ∃ t, exec i s = .next t ∧ ErrorEnd s t 1) ∧
        (∀ sz, CwSize.ofByte (headerN y) = some sz →
          (sz.k < headerLcs y → ∃ t, exec i s = .next t ∧ ErrorEnd s t 2) ∧
          (headerLcs y ≤ sz.k → 8 * (s.ilen.toNat - 9) % sz.n ≠ 0 →
            ∃ t, exec i s = .next t ∧ ErrorEnd s t 3) ∧
          (headerLcs y ≤ sz.k → 9 < s.ilen.toNat → 8 * (s.ilen.toNat - 9) % sz.n = 0 →
            s.caps.obufBytes < (8 * (s.ilen.toNat - 9) / sz.n * sz.k - (sz.k - headerLcs y) + 7) / 8 →
            ∃ t, exec i s = .next t ∧ ErrorEnd s t 4))))

/-- spec/44_decoder.md R190: the length of a decoded result depends only on the input's length and header bytes 7 and
8, which the result reports as lcs and n (R180), and is at most the payload's length. -/
def Obligations.DecodedLength : Prop :=
  ∀ (fix : Bool) (y : List Byte) (r : Decoded), decodeFile fix y = .ok r →
    y[7]? = some (BitVec.ofNat 8 r.lcs) ∧ r.lcs ≤ r.size.k ∧ y[8]? = some (BitVec.ofNat 8 r.size.n) ∧
    r.data.length ≤ y.length - 9 ∧ r.count * r.size.n = 8 * (y.length - 9) ∧
    (r.count = 0 → r.data = []) ∧
    (0 < r.count → r.data.length = (r.count * r.size.k - (r.size.k - r.lcs) + 7) / 8)

/-! ### All commands -/

/-- spec/60_exceptions.md R220: what ending with an error does, exactly. -/
def Obligations.ErrorEndEffect : Prop :=
  ∀ (i : Instr) (s t : State), exec i s = .next t → t.err ≠ 0 →
    t = { s with err := t.err, olen := 0, frame := ⟨0, 0⟩, nchunk := 0, phase := .idle, done := true }

/-- spec/60_exceptions.md R224: which command can end with which error: the `no` entries for every state, the `yes`
entries by a state in which the command ends so, `always` in every state. -/
def Obligations.WhichCommandWhichError : Prop :=
  ∀ (fix : Bool) (n : Byte),
    (∀ i : Instr, (i = .encL1 fix ∨ i = .encL2 fix ∨ i = .encL3 fix) →
      (∀ s t, exec i s = .next t → t.err = 0 ∨ t.err = 4) ∧
      (∃ s t, exec i s = .next t ∧ t.err = 4)) ∧
    (supportedN n = false → ∀ s, ∃ t, exec (.encInv n fix) s = .next t ∧ t.err = 1) ∧
    (∀ i : Instr, (i = .decRaw n ∨ i = .decFix n) →
      (∀ s t, exec i s = .next t → t.err.toNat ≤ 4) ∧
      (∃ s t, exec i s = .next t ∧ t.err = 1) ∧ (∃ s t, exec i s = .next t ∧ t.err = 2) ∧
      (∃ s t, exec i s = .next t ∧ t.err = 3) ∧ (∃ s t, exec i s = .next t ∧ t.err = 4))

/-- The frame of every command (spec/43_encoder.md R165, spec/10_state.md R31, R32): IBUF, CMD, ILEN and the rest are
unchanged, and of OBUF only `OBUF[0..OLEN)` is stored to, none after an error; STATUS ends IDLE and DONE. -/
def Obligations.CommandFrame : Prop :=
  ∀ (i : Instr) (s t : State), s.caps.legal → exec i s = .next t →
    OperationFrame s t ∧ t.phase = .idle ∧ t.done = true ∧
    (∀ a, t.olen.toNat ≤ a → t.obuf.read a = s.obuf.read a) ∧ (t.err ≠ 0 → t.obuf = s.obuf)

/-- spec/60_exceptions.md R218: with legal capacities OLEN, FRAME and NCHUNK hold the length, header fields and count of
the operation's own result, never a wrapped one, or its error, and OLEN and NCHUNK stay in their bounds. -/
def Obligations.ResultsFitRegisters : Prop :=
  ∀ (i : Instr) (s t : State), s.caps.legal → exec i s = .next t →
    t.olen.toNat ≤ s.caps.obufBytes ∧ t.nchunk.toNat ≤ 8 * max s.caps.ibufBytes s.caps.obufBytes / 4 ∧
    t.nchunk.toNat ≤ 2 ^ 29 ∧
    ((∃ out lcs sz count, operationOf i s = .ok (.ok out lcs sz count) ∧
        ResultEnd s t out lcs (CwSize.n sz) count) ∨
      ∃ e, operationOf i s = .ok (.err e) ∧ ErrorEnd s t e.code)

/-- spec/44_decoder.md R194 and spec/30_encoding.md R84: what a command makes depends on ILEN, `IBUF[0..ILEN)` and the
capacities only: not on an ignored field of the command word, not on an earlier operation's results, not on OBUF. -/
def Obligations.CommandDependsOnInputOnly : Prop :=
  ∀ (i j : Instr) (s u t : State), i.wf = true → j.wf = true → i.row = j.row →
    s.caps = u.caps → s.ilen = u.ilen → (∀ a < s.ilen.toNat, s.ibuf.read a = u.ibuf.read a) →
    exec i s = .next t →
    ∃ v, exec j u = .next v ∧ v.err = t.err ∧ v.olen = t.olen ∧ v.frame = t.frame ∧ v.nchunk = t.nchunk ∧
      ∀ a < t.olen.toNat, v.obuf.read a = t.obuf.read a

/-- spec/60_exceptions.md R222: repeating an operation with unchanged inputs ends the same way, in the same state. -/
def Obligations.RepeatEndsTheSame : Prop :=
  ∀ (i : Instr) (s t : State), exec i s = .next t → exec i t = .next t

/-! ### The sub-blocks -/

/-- spec/40_bit_position_map.md R106: gather inverts scatter; scatter after gather forces position 0 and the parity
positions to 0; setting or flipping one of those does not change what gather reads. -/
def Obligations.PositionMapLaws : Prop :=
  ∀ sz : CwSize,
    (∀ d : BitStream, d.length = sz.k → ppmGather sz (ppmScatter sz d) = d) ∧
    (∀ w : BitStream, w.length = sz.n →
      ppmScatter sz (ppmGather sz w) =
        w.mapIdx fun j b => if j = 0 ∨ j ∈ parityPositions sz then false else b) ∧
    (∀ (w : BitStream) (p : Nat) (v : Bool), w.length = sz.n → p = 0 ∨ p ∈ parityPositions sz →
      ppmGather sz (w.set p v) = ppmGather sz w ∧ ppmGather sz (flipBit w p) = ppmGather sz w)

/-- spec/41_syndrome_parity_corrector.md R123: the syndrome is linear, and flipping position e changes it by xor e. -/
def Obligations.SyndromeLinear : Prop :=
  ∀ (sz : CwSize) (a b : BitStream), a.length = sz.n → b.length = sz.n →
    syndrome sz (xorBits a b) = syndrome sz a ^^^ syndrome sz b ∧
    ∀ e < sz.n, syndrome sz (flipBit a e) = syndrome sz a ^^^ e

/-- spec/41_syndrome_parity_corrector.md R121, R122: the syndrome is below n = 2^log2(n), bit b of it is the parity of
the bits whose index has bit b set, and position 0 is invisible to it and never flipped. -/
def Obligations.SyndromeRangeAndPositionZero : Prop :=
  ∀ (sz : CwSize) (cw : BitStream), cw.length = sz.n →
    (syndrome sz cw < sz.n ∧ sz.n = 2 ^ sz.parityBits) ∧
    (∀ b, (syndrome sz cw).testBit b =
      ((List.range sz.n).filter (·.testBit b)).foldl (fun p i => p ^^ cw.getD i false) false) ∧
    (∀ v, syndrome sz (cw.set 0 v) = syndrome sz cw) ∧ syndrome sz (flipBit cw 0) = syndrome sz cw ∧
    (∀ fix, (correct sz fix cw)[0]? = cw[0]?)

/-- spec/41_syndrome_parity_corrector.md R125: on every word whose parity positions are 0, the synthesizer makes the
syndrome 0. -/
def Obligations.ParityMakesSyndromeZero : Prop :=
  ∀ (sz : CwSize) (cw0 : BitStream), cw0.length = sz.n →
    (∀ p ∈ parityPositions sz, cw0[p]? = some false) → syndrome sz (pbs sz cw0) = 0

/-- spec/30_encoding.md R77: the parity bit at position 2^b is bit b of the syndrome of the codeword with its parity
positions still 0; written out per size. -/
def Obligations.ParityEquations : Prop :=
  (∀ (sz : CwSize) (d : BitStream) (b : Nat), d.length = sz.k → b < sz.parityBits →
    (cwenc sz d)[2 ^ b]? = some ((syndrome sz (ppmScatter sz d)).testBit b)) ∧
  (∀ d0 : Bool, cwenc .n4 [d0] = [false, d0, d0, d0]) ∧
  (∀ d0 d1 d2 d3 : Bool, cwenc .n8 [d0, d1, d2, d3] =
    [false, d0 ^^ d1 ^^ d3, d0 ^^ d2 ^^ d3, d0, d1 ^^ d2 ^^ d3, d1, d2, d3]) ∧
  (∀ d0 d1 d2 d3 d4 d5 d6 d7 d8 d9 d10 : Bool, cwenc .n16 [d0, d1, d2, d3, d4, d5, d6, d7, d8, d9, d10] =
    [false, d0 ^^ d1 ^^ d3 ^^ d4 ^^ d6 ^^ d8 ^^ d10, d0 ^^ d2 ^^ d3 ^^ d5 ^^ d6 ^^ d9 ^^ d10, d0,
      d1 ^^ d2 ^^ d3 ^^ d7 ^^ d8 ^^ d9 ^^ d10, d1, d2, d3,
      d4 ^^ d5 ^^ d6 ^^ d7 ^^ d8 ^^ d9 ^^ d10, d4, d5, d6, d7, d8, d9, d10])

/-- spec/30_encoding.md R78: a word of n bits is a codeword the encoder can produce exactly when position 0 is 0 and
the syndrome is 0, and different chunks give different codewords, so there are 2^k of them. -/
def Obligations.ValidCodewords : Prop :=
  ∀ sz : CwSize,
    (∀ w : BitStream, w.length = sz.n →
      (w[0]? = some false ∧ syndrome sz w = 0 ↔ ∃ d : BitStream, d.length = sz.k ∧ cwenc sz d = w)) ∧
    (∀ d e : BitStream, d.length = sz.k → e.length = sz.k → cwenc sz d = cwenc sz e → d = e)

/-- spec/41_syndrome_parity_corrector.md R130, the single-error law: one flipped position e is located and, with fix,
the data are recovered; without fix the data differ, in exactly one bit, exactly when e is a data position. -/
def Obligations.SingleErrorLaw : Prop :=
  ∀ (sz : CwSize) (d : BitStream) (e : Nat), d.length = sz.k → e < sz.n →
    syndrome sz (flipBit (cwenc sz d) e) = e ∧
    cwdec sz true (flipBit (cwenc sz d) e) = d ∧
    (1 ≤ e → correct sz true (flipBit (cwenc sz d) e) = cwenc sz d) ∧
    (e = 0 → correct sz true (flipBit (cwenc sz d) e) = flipBit (cwenc sz d) e) ∧
    (cwdec sz false (flipBit (cwenc sz d) e) = d ↔ e = 0 ∨ e ∈ parityPositions sz) ∧
    (∀ i : Nat, (dataPositions sz)[i]? = some e → cwdec sz false (flipBit (cwenc sz d) e) = flipBit d i)

/-- spec/41_syndrome_parity_corrector.md R131: beyond one error. With the positions of E flipped, whose xor is x, the
syndrome is x and the corrector flips position x when x is not 0 and nothing when it is: no error is reported and the
word is silently mis-corrected or masked. -/
def Obligations.BeyondOneError : Prop :=
  (∀ (sz : CwSize) (d : BitStream) (errs : List Nat) (r : BitStream) (x : Nat),
    d.length = sz.k → errs.Nodup → (∀ e ∈ errs, e < sz.n) →
    r = errs.foldl flipBit (cwenc sz d) → x = errs.foldl (· ^^^ ·) 0 →
    syndrome sz r = x ∧ correct sz true r = if x = 0 then r else flipBit r x) ∧
  cwdec .n8 true (bitsOf 8 0xBE) = [true, true, true, true]

/-- spec/42_chunk_framer_and_packing.md R142: pack inverts unpack; unpack after pack adds the final byte's padding. -/
def Obligations.PackUnpackLaws : Prop :=
  (∀ bytes : List Byte, pack (unpack bytes) = bytes) ∧
  (∀ b : BitStream, unpack (pack b) = b ++ zeros ((8 - b.length % 8) % 8)) ∧
  (∀ b : BitStream, unpack (pack b) = b ↔ b.length % 8 = 0)

/-- spec/42_chunk_framer_and_packing.md R147: unframe inverts frame. -/
def Obligations.UnframeInvertsFrame : Prop :=
  ∀ (sz : CwSize) (b : BitStream), unframe sz.k (frame sz.k b).2 (frame sz.k b).1 = b

/-- spec/42_chunk_framer_and_packing.md R144: the range of last_chunk_size, and R145: its values for whole bytes. -/
def Obligations.LastChunkSizeValues : Prop :=
  (∀ (sz : CwSize) (b : BitStream),
    (1 ≤ b.length → 1 ≤ (frame sz.k b).2 ∧ (frame sz.k b).2 ≤ sz.k ∧
      (frame sz.k b).2 = (if b.length % sz.k = 0 then sz.k else b.length % sz.k) ∧
      sz.k - (frame sz.k b).2 ≤ sz.k - 1 ∧
      b.length + (sz.k - (frame sz.k b).2) = (frame sz.k b).1.length * sz.k) ∧
    (b.length = 0 → (frame sz.k b).2 = 0 ∧ (frame sz.k b).1 = []) ∧
    (frame sz.k b).2 ≤ sz.k ∧ (frame sz.k b).2 < 256) ∧
  (∀ x : List Byte, x ≠ [] →
    (frame 1 (unpack x)).2 = 1 ∧ (frame 4 (unpack x)).2 = 4 ∧
    some (frame 11 (unpack x)).2 = [11, 8, 5, 2, 10, 7, 4, 1, 9, 6, 3][x.length % 11]?)

/-- spec/43_encoder.md R163: the header invariants and the length of every encoded file, and every window of its
payload is a valid codeword. -/
def Obligations.EncodedFileProperties : Prop :=
  ∀ (sz : CwSize) (x y : List Byte) (lcs count : Nat),
    y = (encodeFile sz x).file → lcs = (encodeFile sz x).lcs → count = (encodeFile sz x).count →
    y.take 7 = magic ∧ y[7]? = some (BitVec.ofNat 8 lcs) ∧ lcs ≤ sz.k ∧ y[8]? = some (BitVec.ofNat 8 sz.n) ∧
    y.length = 9 + ceilDiv (count * sz.n) 8 ∧ count = ceilDiv (8 * x.length) sz.k ∧
    (∀ w ∈ windows sz.n (unpack (y.drop 9)), w.length = sz.n ∧ w[0]? = some false ∧ syndrome sz w = 0)

/-- spec/20_memory.md R53: position j of codeword c is bit (c*n + j) mod 8 of the encoded-file byte at offset
9 + (c*n + j) div 8. -/
def Obligations.CodewordPlacement : Prop :=
  ∀ (sz : CwSize) (x : List Byte) (c j : Nat) (chunk : BitStream),
    (frame sz.k (unpack x)).1[c]? = some chunk → j < sz.n →
    ∃ b, (encodeFile sz x).file[9 + (c * sz.n + j) / 8]? = some b ∧
      (cwenc sz chunk)[j]? = some (b.getLsbD ((c * sz.n + j) % 8))

/-- spec/43_encoder.md R164: the encoded file of the empty input is MAGIC, 0, n, and decodes back to the empty
buffer. -/
def Obligations.EmptyInput : Prop :=
  ∀ (sz : CwSize) (fix : Bool),
    (encodeFile sz []).file = [0x68, 0x61, 0x6d, 0x6d, 0x69, 0x6e, 0x67, 0, BitVec.ofNat 8 sz.n] ∧
    (encodeFile sz []).count = 0 ∧ (encodeFile sz []).lcs = 0 ∧
    decodeFile fix (encodeFile sz []).file = .ok { data := [], lcs := 0, size := sz, count := 0 }

/-- spec/44_decoder.md R191: decoding an encoded file gives the original bytes, with and without correction. -/
def Obligations.DecodeInvertsEncode : Prop :=
  ∀ (sz : CwSize) (fix : Bool) (x : List Byte),
    decodeFile fix (encodeFile sz x).file =
      .ok { data := x, lcs := (encodeFile sz x).lcs, size := sz, count := (encodeFile sz x).count }

/-- spec/44_decoder.md R191, in the block: ENC, its result moved to IBUF, then DEC gives the original input. -/
def Obligations.BlockRoundTrip : Prop :=
  ∀ (s t u : State) (i j : Instr) (f : Bool) (n : Byte),
    s.caps.legal → u.caps.legal → (i = .encL1 f ∨ i = .encL2 f ∨ i = .encL3 f) →
    exec i s = .next t → t.err = 0 →
    u.ilen = t.olen → (∀ a < t.olen.toNat, u.ibuf.read a = t.obuf.read a) →
    u.ilen.toNat ≤ u.caps.ibufBytes → s.ilen.toNat ≤ u.caps.obufBytes →
    (j = .decRaw n ∨ j = .decFix n) →
    ∃ v, exec j u = .next v ∧ v.err = 0 ∧ v.olen = s.ilen ∧ v.frame = t.frame ∧ v.nchunk = t.nchunk ∧
      ∀ a < s.ilen.toNat, v.obuf.read a = s.ibuf.read a

/-- spec/44_decoder.md R192: with one position flipped in every window, decoding with correction gives the original
bytes; without it the bytes differ exactly when some flipped position is a data position that is no trimmed padding
bit (spec/90_conflicts.md C4). -/
def Obligations.SingleFlipResilience : Prop :=
  ∀ (sz : CwSize) (x y : List Byte) (draw : List Nat), corrupt (encodeFile sz x).file draw = some y →
    decodeFile true y =
      .ok { data := x, lcs := (encodeFile sz x).lcs, size := sz, count := (encodeFile sz x).count } ∧
    ∃ r, decodeFile false y = .ok r ∧ r.data.length = x.length ∧
      (r.data ≠ x ↔ ∃ c i p : Nat, draw[c]? = some p ∧ (dataPositions sz)[i]? = some p ∧
        c * sz.k + i < 8 * x.length)

/-- spec/45_corruptor_environment.md R201: exactly one bit flipped per window, the one drawn, the header untouched,
the length kept. -/
def Obligations.CorruptorGuarantees : Prop :=
  ∀ (y z : List Byte) (draw : List Nat), corrupt y draw = some z →
    z.length = y.length ∧ z.take 9 = y.take 9 ∧
    ∃ sz, CwSize.ofByte (headerN y) = some sz ∧
      draw.length = (windows sz.n (unpack (y.drop 9))).length ∧
      ∀ (c : Nat) (p : Nat), draw[c]? = some p → p < sz.n ∧
        (windows sz.n (unpack (z.drop 9)))[c]? = ((windows sz.n (unpack (y.drop 9)))[c]?).map (flipBit · p)

/-- spec/70_reset_and_hazards.md R255: a flipped bit in bytes 0 to 6 of an accepted file gives MalformedHeader, one in
byte 8 InvalidChunkSize. -/
def Obligations.HeaderFlipsRejected : Prop :=
  ∀ (fix : Bool) (y : List Byte) (r : Decoded) (b i : Nat), decodeFile fix y = .ok r → i < 8 →
    (b < 7 → decodeFile fix (y.modify b (· ^^^ (1 <<< i))) = .error .malformedHeader) ∧
    (b = 8 → decodeFile fix (y.modify b (· ^^^ (1 <<< i))) = .error .invalidChunkSize)

/-- spec/40_bit_position_map.md R108, spec/41_syndrome_parity_corrector.md R133: the sub-blocks as modules on their
buses compute the functions: positions n..15 and bits k..10 are 0 or ignored, and bit 0 of the flip mask is never
set. -/
def Obligations.PortsMatchFunctions : Prop :=
  (∀ (sz : CwSize) (d : BitVec 11),
    bitsOf 16 (scatterPort sz d).toNat = ppmScatter sz (bitsOf sz.k d.toNat) ++ zeros (16 - sz.n)) ∧
  (∀ (sz : CwSize) (cw : BitVec 16),
    bitsOf 11 (gatherPort sz cw).toNat = ppmGather sz (bitsOf sz.n cw.toNat) ++ zeros (11 - sz.k)) ∧
  (∀ (sz : CwSize) (cw : BitVec 16), cw.toNat < 2 ^ sz.n →
    (synPort sz cw).toNat = syndrome sz (bitsOf sz.n cw.toNat) ∧
    bitsOf 16 (pbsPort sz cw).toNat = pbs sz (bitsOf sz.n cw.toNat) ++ zeros (16 - sz.n) ∧
    ∀ fix, bitsOf 16 (corPort cw (bflFlipmask (synPort sz cw)) fix).toNat =
      correct sz fix (bitsOf sz.n cw.toNat) ++ zeros (16 - sz.n)) ∧
  (∀ s : BitVec 4, (bflFlipmask s).getLsbD 0 = false ∧ (bflHit s = false ↔ s = 0))

/-! ### Host programs -/

/-- spec/30_encoding.md R93, LOAD: its turns, taken by an IDLE block, leave the bytes in `IBUF[0..)` and their count
in ILEN and nothing else changed. -/
def Obligations.LoadStatement : Prop :=
  ∀ (s : State) (bytes : List Byte) (rest : List Event), s.phase = .idle →
    bytes.length ≤ s.caps.ibufBytes → bytes.length < 2 ^ 32 →
    ∃ turns, (HostStmt.load bytes).events s = some turns ∧ turns.length = bytes.length + 1 ∧
      (s.events = turns ++ rest →
        ∃ t : State, core.run (bytes.length + 1) s = .next t ∧ t.HasInput bytes ∧ t.ilen.toNat = bytes.length ∧
          t = { s with ibuf := t.ibuf, ilen := t.ilen, events := rest, draws := t.draws } ∧
          ∀ a, bytes.length ≤ a → t.ibuf.read a = s.ibuf.read a)

/-- spec/30_encoding.md R93, MOVE: its turns, taken by an IDLE block whose result is written, leave
`IBUF[0..OLEN)` = `OBUF[0..OLEN)` and ILEN = OLEN and no other register or OBUF byte changed. -/
def Obligations.MoveStatement : Prop :=
  ∀ (s : State) (rest : List Event), s.phase = .idle →
    s.olen.toNat ≤ s.caps.ibufBytes → s.olen.toNat ≤ s.caps.obufBytes →
    (∀ a < s.olen.toNat, s.obuf.read a ≠ none) →
    ∃ turns, HostStmt.move.events s = some turns ∧ turns.length = 2 * s.olen.toNat + 2 ∧
      (s.events = turns ++ rest →
        ∃ t : State, core.run (2 * s.olen.toNat + 2) s = .next t ∧ t.ilen = s.olen ∧
          (∀ a < s.olen.toNat, t.ibuf.read a = s.obuf.read a) ∧
          (∀ a, s.olen.toNat ≤ a → t.ibuf.read a = s.ibuf.read a) ∧
          t = { s with ibuf := t.ibuf, ilen := t.ilen, events := rest, draws := t.draws, rdata := t.rdata })

/-- spec/30_encoding.md R93, spec/45_corruptor_environment.md R204, FLIP c j: its two turns, one read and one write of one
IBUF byte, taken by an IDLE block with an encoded file in IBUF, invert position j of window c and nothing else: every
other byte of IBUF reads as before. Where j is no position or c no window, FLIP has no turns. That the host knows n
without an access, and that FLIP has no meaning there, are the model's choice (log entry 21). -/
def Obligations.FlipStatement : Prop :=
  ∀ (s : State) (y : List Byte) (sz : CwSize) (count c j : Nat) (rest : List Event), s.phase = .idle →
    s.HasInput y → s.ilen.toNat ≤ s.caps.ibufBytes → y[8]? = some (BitVec.ofNat 8 sz.n) →
    8 * (s.ilen.toNat - 9) = count * sz.n →
    (sz.n ≤ j ∨ count ≤ c → (HostStmt.flip c j).events s = none) ∧
    (j < sz.n → c < count →
      ∃ (a : Nat) (v : Byte),
        (HostStmt.flip c j).events s = some [.host (.readIbuf a), .host (.writeIbuf a v)] ∧
        (s.events = .host (.readIbuf a) :: .host (.writeIbuf a v) :: rest →
          ∃ (t : State) (z : List Byte), core.run 2 s = .next t ∧ t.HasInput z ∧ z.take 9 = y.take 9 ∧
            unpack (z.drop 9) = flipBit (unpack (y.drop 9)) (c * sz.n + j) ∧
            (∀ b, b ≠ 9 + (c * sz.n + j) / 8 → t.ibuf.read b = s.ibuf.read b) ∧
            t = { s with ibuf := t.ibuf, events := rest, draws := t.draws, rdata := t.rdata }))

/-- spec/30_encoding.md R93, WAIT: it ends on the first STATUS read with BUSY = 0 and DONE = 1. While IDLE with DONE = 1
that is its one read. While BUSY its first reads, any number of them, show BUSY = 1 (spec/10_state.md R38), and its last,
after COMPLETE, ends it, for every operation that reads no unwritten byte. While IDLE with DONE = 0 a STATUS read leaves
the block so and shows DONE = 0, so WAIT has no turns. That the number of reads is an argument, and that a WAIT which
never ends has no turns, are the model's choice (log entry 21). -/
def Obligations.WaitStatement : Prop :=
  ∀ (s : State) (polls : Nat) (rest : List Event),
    (s.phase = .idle → s.done = true →
      (HostStmt.wait polls).events s = some [.host (.readReg 3)] ∧
      (s.events = .host (.readReg 3) :: rest →
        ∃ w : Word, step s = .next { s with events := rest, rdata := some (.word w) } ∧
          w.getLsbD 0 = false ∧ w.getLsbD 1 = true)) ∧
    (s.phase = .busy → s.unwrittenInput = none →
      ∃ turns, (HostStmt.wait polls).events s = some turns ∧ turns.length = polls + 2 ∧
        (s.events = turns ++ rest →
          (∀ m < polls, ∃ (u : State) (w : Word), core.run (m + 1) s = .next u ∧ u.phase = .busy ∧
            u.rdata = some (.word w) ∧ w.getLsbD 0 = true) ∧
          ∃ (t : State) (w : Word), core.run (polls + 2) s = .next t ∧ t.phase = .idle ∧ t.done = true ∧
            t.events = rest ∧ t.rdata = some (.word w) ∧ w.getLsbD 0 = false ∧ w.getLsbD 1 = true)) ∧
    (s.phase = .idle → s.done = false →
      (HostStmt.wait polls).events s = none ∧
      (s.events = .host (.readReg 3) :: rest →
        ∃ w : Word, step s = .next { s with events := rest, rdata := some (.word w) } ∧ w.getLsbD 1 = false))
end

