-- ==== Sys2Proof/Laws/Streams.lean ====
section
/-! SUPPORT. Lengths and elements of the stream operations of Machine/BitStreams.lean and Machine/Framer.lean. -/

namespace Sys2Proof.Machine

/-- `ceilDiv` is the least q with `a <= q * b` (spec/00_scope.md R12). -/
theorem ceilDiv_le_iff (a b q : Nat) (hb : 0 < b) : ceilDiv a b ≤ q ↔ a ≤ q * b := by
  unfold ceilDiv
  rw [Nat.div_le_iff_le_mul_add_pred hb, Nat.mul_comm b q]
  omega

/-- The covering property of `ceilDiv`. -/
theorem le_ceilDiv_mul (a b : Nat) (hb : 0 < b) : a ≤ ceilDiv a b * b :=
  (ceilDiv_le_iff a b _ hb).1 (le_refl _)

/-- `ceilDiv` overshoots by less than one divisor. -/
theorem ceilDiv_mul_lt (a b : Nat) (hb : 0 < b) : ceilDiv a b * b < a + b := by
  unfold ceilDiv
  have := Nat.div_mul_le_self (a + (b - 1)) b
  omega

@[simp] theorem ceilDiv_mul_self (q b : Nat) (hb : 0 < b) : ceilDiv (q * b) b = q :=
  Nat.le_antisymm ((ceilDiv_le_iff _ _ _ hb).2 (le_refl _))
    (Nat.le_of_mul_le_mul_right (le_ceilDiv_mul (q * b) b hb) hb)

@[simp] theorem zeros_length (m : Nat) : (zeros m).length = m := List.length_replicate

@[simp] theorem zeros_getElem? (m i : Nat) : (zeros m)[i]? = if i < m then some false else none :=
  List.getElem?_replicate

@[simp] theorem flipBit_length (b : BitStream) (i : Nat) : (flipBit b i).length = b.length :=
  List.length_modify ..

/-- A flip inverts the bit at its index and leaves every other bit alone. -/
theorem flipBit_getElem? (b : BitStream) (i j : Nat) :
    (flipBit b i)[j]? = if i = j then b[j]?.map (!·) else b[j]? := by
  rw [flipBit, List.getElem?_modify]
  split <;> simp

@[simp] theorem groups_length (k count : Nat) (b : BitStream) : (groups k count b).length = count := by
  induction count generalizing b with
  | zero => rfl
  | succ c ih => simp [groups, ih]

/-- Group c holds the k bits from `c * k` on. -/
theorem groups_getElem? (k count : Nat) (b : BitStream) (c : Nat) (hc : c < count) :
    (groups k count b)[c]? = some ((b.drop (c * k)).take k) := by
  induction count generalizing b c with
  | zero => omega
  | succ n ih =>
    cases c with
    | zero => simp [groups]
    | succ c =>
      rw [groups, List.getElem?_cons_succ, ih _ _ (by omega), List.drop_drop, Nat.succ_mul, Nat.add_comm k]

/-- Laid end to end, groups that lie inside the stream are its first bits. -/
theorem groups_flatten (k count : Nat) (b : BitStream) : (groups k count b).flatten = b.take (count * k) := by
  induction count generalizing b with
  | zero => simp [groups]
  | succ c ih => rw [groups, List.flatten_cons, ih, Nat.succ_mul, Nat.add_comm, ← List.take_add]

@[simp] theorem unpackByte_length (b : Byte) : (unpackByte b).length = 8 := by simp [unpackByte]

@[simp] theorem unpack_nil : unpack [] = [] := rfl

theorem unpack_cons (b : Byte) (bs : List Byte) : unpack (b :: bs) = unpackByte b ++ unpack bs := rfl

@[simp] theorem unpack_length (bs : List Byte) : (unpack bs).length = 8 * bs.length := by
  induction bs with
  | nil => rfl
  | cons b bs ih => rw [unpack_cons, List.length_append, ih, unpackByte_length, List.length_cons]; omega

@[simp] theorem pack_length (b : BitStream) : (pack b).length = ceilDiv b.length 8 := by simp [pack]

@[simp] theorem windows_length (n : Nat) (p : BitStream) : (windows n p).length = p.length / n := by simp [windows]

@[simp] theorem frame_count (k : Nat) (b : BitStream) : (frame k b).1.length = ceilDiv b.length k := by
  unfold frame
  split
  · simp [*]
  · simp

end Sys2Proof.Machine
end

