-- ==== Sys2Proof/Laws/Codeword.lean ====
section
/-! SUPPORT. The tables of the three codeword sizes (spec/40_bit_position_map.md R101) and the lengths of the
codeword functions of Machine/PositionMap.lean and Machine/Syndrome.lean. -/

namespace Sys2Proof.Machine

@[simp] theorem dataPositions_n4 : dataPositions .n4 = [3] := by decide
@[simp] theorem dataPositions_n8 : dataPositions .n8 = [3, 5, 6, 7] := by decide
@[simp] theorem dataPositions_n16 : dataPositions .n16 = [3, 5, 6, 7, 9, 10, 11, 12, 13, 14, 15] := by decide
@[simp] theorem parityPositions_n4 : parityPositions .n4 = [1, 2] := by decide
@[simp] theorem parityPositions_n8 : parityPositions .n8 = [1, 2, 4] := by decide
@[simp] theorem parityPositions_n16 : parityPositions .n16 = [1, 2, 4, 8] := by decide

/-- k, P_n and n fit together (spec/40_bit_position_map.md R100, R101). -/
@[simp] theorem dataPositions_length (sz : CwSize) : (dataPositions sz).length = sz.k := by cases sz <;> decide

theorem CwSize.n_pos (sz : CwSize) : 0 < sz.n := by cases sz <;> decide
theorem CwSize.k_pos (sz : CwSize) : 0 < sz.k := by cases sz <;> decide
theorem CwSize.k_le (sz : CwSize) : sz.k ≤ 11 := by cases sz <;> decide

/-- A byte names a size exactly when it is that size's n. -/
theorem CwSize.ofByte_eq_some (b : Byte) (sz : CwSize) : CwSize.ofByte b = some sz ↔ b = sz.toByte := by
  unfold CwSize.ofByte
  constructor
  · intro h
    split at h
    · cases h; assumption
    · split at h
      · cases h; assumption
      · split at h
        · cases h; assumption
        · cases h
  · rintro rfl; cases sz <;> decide

/-- A byte names no size exactly when it is not 4, 8 or 16. -/
theorem CwSize.ofByte_eq_none (b : Byte) : CwSize.ofByte b = none ↔ supportedN b = false := by
  simp only [CwSize.ofByte, supportedN, Bool.or_eq_false_iff, beq_eq_false_iff_ne]
  grind

/-- A loop of conditional writes keeps the length of the word. -/
theorem foldl_length {α : Type} (f : BitStream → α → BitStream) (h : ∀ cw a, (f cw a).length = cw.length)
    (l : List α) (cw : BitStream) : (l.foldl f cw).length = cw.length := by
  induction l generalizing cw with
  | nil => rfl
  | cons a l ih => rw [List.foldl_cons, ih, h]

@[simp] theorem ppmScatter_length (sz : CwSize) (d : BitStream) : (ppmScatter sz d).length = sz.n := by
  rw [ppmScatter, foldl_length _ (fun _ _ => List.length_set), zeros_length]

@[simp] theorem ppmGather_length (sz : CwSize) (cw : BitStream) : (ppmGather sz cw).length = sz.k := by
  simp only [ppmGather, List.length_map, dataPositions_length]

@[simp] theorem pbs_length (sz : CwSize) (cw0 : BitStream) : (pbs sz cw0).length = cw0.length :=
  foldl_length _ (fun cw b => by split <;> simp) _ _

@[simp] theorem cwenc_length (sz : CwSize) (d : BitStream) : (cwenc sz d).length = sz.n := by simp [cwenc]

@[simp] theorem correct_length (sz : CwSize) (fix : Bool) (cw : BitStream) :
    (correct sz fix cw).length = cw.length := by
  unfold correct
  split
  · split <;> simp
  · rfl

@[simp] theorem cwdec_length (sz : CwSize) (fix : Bool) (cw : BitStream) : (cwdec sz fix cw).length = sz.k :=
  ppmGather_length ..

/-- Without `fix` the received word is gathered unchanged (spec/41_syndrome_parity_corrector.md R132). -/
@[simp] theorem correct_false (sz : CwSize) (cw : BitStream) : correct sz false cw = cw := rfl

/-- `n` codewords of n bits are `count * n` payload bits (spec/30_encoding.md R82). -/
theorem flatMap_cwenc_length (sz : CwSize) (chunks : List BitStream) :
    (chunks.flatMap (cwenc sz)).length = chunks.length * sz.n := by
  induction chunks with
  | nil => simp
  | cons c cs ih => rw [List.flatMap_cons, List.length_append, ih, cwenc_length, List.length_cons, Nat.succ_mul]; omega

end Sys2Proof.Machine
end

