-- ==== Sys2Proof/Laws/HostProgram.lean ====
section
/-! SUPPORT. What the turns of a host-program statement are: their number, and when FLIP has some. -/

namespace Sys2Proof.Machine

@[simp] theorem writeIbufFrom_length (a : Nat) (bytes : List Byte) : (writeIbufFrom a bytes).length = bytes.length := by
  induction bytes generalizing a with
  | nil => rfl
  | cons v rest ih => simp [writeIbufFrom, ih]

@[simp] theorem moveTurns_length (s : State) : (moveTurns s).length = 2 * s.olen.toNat + 2 := by
  simp [moveTurns]; omega

theorem flipFits_iff (sz : CwSize) (ilen c j : Nat) :
    flipFits sz ilen c j = true ↔
      9 ≤ ilen ∧ 8 * (ilen - 9) % sz.n = 0 ∧ j < sz.n ∧ c < 8 * (ilen - 9) / sz.n := by
  simp only [flipFits, Bool.and_eq_true, decide_eq_true_eq, beq_iff_eq, and_assoc]; rfl

theorem State.fileSize_eq (s : State) (sz : CwSize) (b : Byte) (hcap : s.ilen.toNat ≤ s.caps.ibufBytes)
    (hb : s.ibuf.read 8 = some b) (hsz : CwSize.ofByte b = some sz) : s.fileSize = some sz := by
  simp [State.fileSize, hcap, hb, hsz]

/-- What turns a WAIT has: the three cases of the state it is reached in. -/
theorem waitTurns_cases (s : State) (polls : Nat) :
    (s.phase = .busy ∧
      waitTurns s polls = some (List.replicate polls (.host (.readReg 3)) ++ [.sequencer, .host (.readReg 3)])) ∨
    (s.phase = .idle ∧ s.done = true ∧ waitTurns s polls = some [.host (.readReg 3)]) ∨
    (s.phase = .idle ∧ s.done = false ∧ waitTurns s polls = none) := by
  unfold waitTurns
  cases hp : s.phase <;> cases hd : s.done <;> simp

/-- FLIP while IDLE on a file of codewords of size `sz`. -/
theorem HostStmt.events_flip (s : State) (sz : CwSize) (c j : Nat) (hidle : s.phase = .idle)
    (hsz : s.fileSize = some sz) :
    (HostStmt.flip c j).events s =
      if flipFits sz s.ilen.toNat c j then some (flipTurns s (positionByte sz.n c j) (positionBit sz.n c j))
      else none := by
  simp [HostStmt.events, hidle, hsz]

end Sys2Proof.Machine
end

