-- ==== Sys2Proof/Laws/Memory.lean ====
section
/-! SUPPORT. What the buffer operations do: read after write, the canonical form, ranges of bytes. -/

namespace Sys2Proof.Machine

@[simp] theorem Memory.read_nil (a : Nat) : Memory.read [] a = none := rfl

/-- Every listed offset of a canonical tail is above its head. -/
theorem Memory.wf_cons (c : Host.Cell) (m : Memory) :
    Memory.wf (c :: m) ↔ (∀ d ∈ m, c.1 < d.1) ∧ Memory.wf m := List.pairwise_cons

/-- A read after a write: the written byte at its offset, every other byte as before. -/
theorem Memory.read_write (m : Memory) (a : Nat) (v : Byte) (b : Nat) :
    (m.write a v).read b = if b = a then some v else m.read b := by
  induction m with
  | nil => simp only [Memory.write, Memory.read]; split <;> split <;> simp_all
  | cons c rest ih =>
    simp only [Memory.write]
    split
    · simp only [Memory.read]; grind
    · split
      · simp only [Memory.read]; grind
      · simp only [Memory.read, ih]; grind

/-- Writing again what the last write to that offset wrote changes nothing. -/
theorem Memory.write_settled (m : Memory) (a : Nat) (v : Byte) : (m.write a v).write a v = m.write a v := by
  induction m with
  | nil => simp [Memory.write]
  | cons c rest ih =>
    simp only [Memory.write]
    split
    · simp [Memory.write]
    · split
      · simp [Memory.write]
      · rw [Memory.write, if_neg ‹_›, if_neg ‹_›, ih]

/-- A write above an offset leaves what a repeated write there would change unchanged. -/
theorem Memory.write_settled_above (m : Memory) (a b : Nat) (v w : Byte) (hab : a < b)
    (h : m.write a v = m) : (m.write b w).write a v = m.write b w := by
  induction m with
  | nil => simp [Memory.write] at h
  | cons c rest ih =>
    simp only [Memory.write] at h
    split at h
    · exact absurd (congrArg List.length h) (by simp)
    · split at h
      · obtain rfl : (a, v) = c := (List.cons.inj h).1
        rw [Memory.write, if_neg (by simp only; omega), if_neg (by simp only; omega), Memory.write]
        simp
      · have hr := (List.cons.inj h).2
        simp only [Memory.write]
        rw [if_neg (show ¬ b < c.1 by omega), if_neg (show ¬ b = c.1 by omega), Memory.write, if_neg ‹_›,
          if_neg ‹_›, ih hr]

/-- Which cells a write lists: the written one and those that were listed. -/
theorem Memory.mem_write (m : Memory) (a : Nat) (v : Byte) (c : Host.Cell) (h : c ∈ m.write a v) :
    c = (a, v) ∨ c ∈ m := by
  induction m with
  | nil => simpa [Memory.write] using h
  | cons d rest ih =>
    simp only [Memory.write] at h
    split at h
    · simpa using h
    · split at h
      · rcases List.mem_cons.1 h with h | h <;> simp [h]
      · rcases List.mem_cons.1 h with h | h
        · simp [h]
        · rcases ih h with h | h <;> simp [h]

/-- A write keeps the canonical form. -/
theorem Memory.write_wf (m : Memory) (a : Nat) (v : Byte) (h : m.wf) : (m.write a v).wf := by
  induction m with
  | nil => simp [Memory.write, Memory.wf]
  | cons c rest ih =>
    obtain ⟨hc, hr⟩ := (Memory.wf_cons c rest).1 h
    simp only [Memory.write]
    split
    · refine (Memory.wf_cons _ _).2 ⟨fun d hd => ?_, h⟩
      rcases List.mem_cons.1 hd with rfl | hd
      · assumption
      · exact lt_trans ‹_› (hc d hd)
    · split
      · refine (Memory.wf_cons _ _).2 ⟨fun d hd => ?_, hr⟩
        have := hc d hd
        simp only
        omega
      · refine (Memory.wf_cons _ _).2 ⟨fun d hd => ?_, ih hr⟩
        rcases Memory.mem_write rest a v d hd with rfl | hd
        · show c.1 < a
          omega
        · exact hc d hd

/-- A write inside the buffer keeps its contents inside the buffer. -/
theorem Memory.write_within (m : Memory) (a : Nat) (v : Byte) (cap : Nat) (h : m.within cap) (ha : a < cap) :
    (m.write a v).within cap := by
  intro c hc
  rcases Memory.mem_write m a v c hc with rfl | hc
  · exact ha
  · exact h c hc

/-- A range of writes keeps the canonical form. -/
theorem Memory.writeBytes_wf (out : List Byte) : ∀ (m : Memory) (a : Nat), m.wf → (m.writeBytes a out).wf := by
  induction out with
  | nil => intro m a h; exact h
  | cons v rest ih => intro m a h; exact ih _ _ (m.write_wf a v h)

/-- A range of writes inside the buffer keeps its contents inside the buffer. -/
theorem Memory.writeBytes_within (out : List Byte) (cap : Nat) :
    ∀ (m : Memory) (a : Nat), m.within cap → a + out.length ≤ cap → (m.writeBytes a out).within cap := by
  induction out with
  | nil => intro m a h _; exact h
  | cons v rest ih =>
    intro m a h ha
    simp only [List.length_cons] at ha
    exact ih _ _ (m.write_within a v cap h (by omega)) (by omega)

/-- A read after a range of writes: the range holds the bytes written, every other byte is as before. -/
theorem Memory.read_writeBytes (out : List Byte) :
    ∀ (m : Memory) (a b : Nat),
      (m.writeBytes a out).read b = if a ≤ b ∧ b < a + out.length then out[b - a]? else m.read b := by
  induction out with
  | nil => intro m a b; simp only [Memory.writeBytes, List.length_nil]; rw [if_neg (by omega)]
  | cons v rest ih =>
    intro m a b
    rw [Memory.writeBytes, ih, m.read_write a v b]
    simp only [List.length_cons]
    by_cases hb : b = a
    · subst hb; simp
    · by_cases hr : a + 1 ≤ b ∧ b < a + 1 + rest.length
      · rw [if_pos hr, if_pos (by omega), show b - a = (b - (a + 1)) + 1 by omega]; simp
      · rw [if_neg hr, if_neg hb, if_neg (by omega)]

/-- A read of a range answers its bytes exactly when each of them is written. -/
theorem Memory.readBytes_ok (m : Memory) (len : Nat) :
    ∀ (a : Nat) (x : List Byte),
      m.readBytes a len = .ok x ↔ x.length = len ∧ ∀ i < len, m.read (a + i) = x[i]? := by
  induction len with
  | zero =>
    intro a x
    simp only [Memory.readBytes, Except.ok.injEq]
    constructor
    · rintro rfl; simp
    · rintro ⟨h, -⟩; exact (List.length_eq_zero_iff.1 h).symm
  | succ len ih =>
    intro a x
    simp only [Memory.readBytes]
    cases hm : m.read a with
    | none =>
      simp only [reduceCtorEq, false_iff, not_and]
      intro hx h
      have := h 0 (by omega)
      rw [Nat.add_zero, hm, eq_comm, List.getElem?_eq_none_iff] at this
      omega
    | some v =>
      cases hr : m.readBytes (a + 1) len with
      | error e =>
        simp only [reduceCtorEq, false_iff, not_and]
        intro hx h
        refine absurd ((ih (a + 1) x.tail).2 ⟨by simp [hx], fun i hi => ?_⟩) (by simp [hr])
        rw [show a + 1 + i = a + (i + 1) by omega, h (i + 1) (by omega), List.getElem?_tail]
      | ok rest =>
        obtain ⟨hl, hb⟩ := (ih (a + 1) rest).1 hr
        simp only [Except.ok.injEq]
        constructor
        · rintro rfl
          refine ⟨by simp [hl], fun i hi => ?_⟩
          cases i with
          | zero => simpa using hm
          | succ i => rw [show a + (i + 1) = a + 1 + i by omega, hb i (by omega)]; simp
        · rintro ⟨hx, h⟩
          refine List.ext_getElem? fun i => ?_
          by_cases hi : i < len + 1
          · rw [← h i hi]
            cases i with
            | zero => simpa using hm.symm
            | succ i => rw [show a + (i + 1) = a + 1 + i by omega, hb i (by omega)]; simp
          · rw [List.getElem?_eq_none (by simp [hl]; omega), List.getElem?_eq_none (by omega)]

/-- A read of a range stops at the first offset of the range that nothing has written. -/
theorem Memory.readBytes_error (m : Memory) (len : Nat) :
    ∀ (a e : Nat), m.readBytes a len = .error e →
      a ≤ e ∧ e < a + len ∧ m.read e = none ∧ ∀ b, a ≤ b → b < e → m.read b ≠ none := by
  induction len with
  | zero => intro a e h; simp [Memory.readBytes] at h
  | succ len ih =>
    intro a e h
    simp only [Memory.readBytes] at h
    split at h
    · cases h
      exact ⟨le_refl _, by omega, ‹_›, fun b h1 h2 => absurd h2 (by omega)⟩
    · split at h
      · cases h
        obtain ⟨h1, h2, h3, h4⟩ := ih _ _ ‹_›
        refine ⟨by omega, by omega, h3, fun b hb hbe => ?_⟩
        by_cases hba : b = a
        · subst hba; simp [*]
        · exact h4 b (by omega) hbe
      · cases h

end Sys2Proof.Machine
end

