-- ==== Sys2Proof/Laws/State.lean ====
section
/-! SUPPORT. One lemma per field of State and per update of Machine/Ops.lean, so that no proof unfolds a record update. -/

namespace Sys2Proof.Machine

@[simp] theorem State.endWithError_caps (s : State) (e : ErrorCode) : (s.endWithError e).caps = s.caps := rfl
@[simp] theorem State.endWithError_phase (s : State) (e : ErrorCode) : (s.endWithError e).phase = .idle := rfl
@[simp] theorem State.endWithError_cmd (s : State) (e : ErrorCode) : (s.endWithError e).cmd = s.cmd := rfl
@[simp] theorem State.endWithError_ilen (s : State) (e : ErrorCode) : (s.endWithError e).ilen = s.ilen := rfl
@[simp] theorem State.endWithError_done (s : State) (e : ErrorCode) : (s.endWithError e).done = true := rfl
@[simp] theorem State.endWithError_err (s : State) (e : ErrorCode) : (s.endWithError e).err = e.code := rfl
@[simp] theorem State.endWithError_olen (s : State) (e : ErrorCode) : (s.endWithError e).olen = 0 := rfl
@[simp] theorem State.endWithError_frame (s : State) (e : ErrorCode) : (s.endWithError e).frame = ⟨0, 0⟩ := rfl
@[simp] theorem State.endWithError_nchunk (s : State) (e : ErrorCode) : (s.endWithError e).nchunk = 0 := rfl
@[simp] theorem State.endWithError_ibuf (s : State) (e : ErrorCode) : (s.endWithError e).ibuf = s.ibuf := rfl
@[simp] theorem State.endWithError_obuf (s : State) (e : ErrorCode) : (s.endWithError e).obuf = s.obuf := rfl
@[simp] theorem State.endWithError_events (s : State) (e : ErrorCode) : (s.endWithError e).events = s.events := rfl
@[simp] theorem State.endWithError_rdata (s : State) (e : ErrorCode) : (s.endWithError e).rdata = s.rdata := rfl
@[simp] theorem State.endWithError_era (s : State) (e : ErrorCode) : (s.endWithError e).era = s.era := rfl
@[simp] theorem State.endWithError_draws (s : State) (e : ErrorCode) : (s.endWithError e).draws = s.draws := rfl

@[simp] theorem State.endWithResult_caps (s : State) (out : List Byte) (lcs : Nat) (sz : CwSize) (count : Nat) : (s.endWithResult out lcs sz count).caps = s.caps := rfl
@[simp] theorem State.endWithResult_phase (s : State) (out : List Byte) (lcs : Nat) (sz : CwSize) (count : Nat) : (s.endWithResult out lcs sz count).phase = .idle := rfl
@[simp] theorem State.endWithResult_cmd (s : State) (out : List Byte) (lcs : Nat) (sz : CwSize) (count : Nat) : (s.endWithResult out lcs sz count).cmd = s.cmd := rfl
@[simp] theorem State.endWithResult_ilen (s : State) (out : List Byte) (lcs : Nat) (sz : CwSize) (count : Nat) : (s.endWithResult out lcs sz count).ilen = s.ilen := rfl
@[simp] theorem State.endWithResult_done (s : State) (out : List Byte) (lcs : Nat) (sz : CwSize) (count : Nat) : (s.endWithResult out lcs sz count).done = true := rfl
@[simp] theorem State.endWithResult_err (s : State) (out : List Byte) (lcs : Nat) (sz : CwSize) (count : Nat) : (s.endWithResult out lcs sz count).err = 0 := rfl
@[simp] theorem State.endWithResult_olen (s : State) (out : List Byte) (lcs : Nat) (sz : CwSize) (count : Nat) : (s.endWithResult out lcs sz count).olen = BitVec.ofNat 32 out.length := rfl
@[simp] theorem State.endWithResult_frame (s : State) (out : List Byte) (lcs : Nat) (sz : CwSize) (count : Nat) : (s.endWithResult out lcs sz count).frame = ⟨BitVec.ofNat 8 lcs, sz.toByte⟩ := rfl
@[simp] theorem State.endWithResult_nchunk (s : State) (out : List Byte) (lcs : Nat) (sz : CwSize) (count : Nat) : (s.endWithResult out lcs sz count).nchunk = BitVec.ofNat 32 count := rfl
@[simp] theorem State.endWithResult_ibuf (s : State) (out : List Byte) (lcs : Nat) (sz : CwSize) (count : Nat) : (s.endWithResult out lcs sz count).ibuf = s.ibuf := rfl
@[simp] theorem State.endWithResult_obuf (s : State) (out : List Byte) (lcs : Nat) (sz : CwSize) (count : Nat) : (s.endWithResult out lcs sz count).obuf = s.obuf.writeBytes 0 out := rfl
@[simp] theorem State.endWithResult_events (s : State) (out : List Byte) (lcs : Nat) (sz : CwSize) (count : Nat) : (s.endWithResult out lcs sz count).events = s.events := rfl
@[simp] theorem State.endWithResult_rdata (s : State) (out : List Byte) (lcs : Nat) (sz : CwSize) (count : Nat) : (s.endWithResult out lcs sz count).rdata = s.rdata := rfl
@[simp] theorem State.endWithResult_era (s : State) (out : List Byte) (lcs : Nat) (sz : CwSize) (count : Nat) : (s.endWithResult out lcs sz count).era = s.era := rfl
@[simp] theorem State.endWithResult_draws (s : State) (out : List Byte) (lcs : Nat) (sz : CwSize) (count : Nat) : (s.endWithResult out lcs sz count).draws = s.draws := rfl

@[simp] theorem State.begin_caps (s : State) : (s.begin).caps = s.caps := rfl
@[simp] theorem State.begin_phase (s : State) : (s.begin).phase = .busy := rfl
@[simp] theorem State.begin_cmd (s : State) : (s.begin).cmd = s.cmd := rfl
@[simp] theorem State.begin_ilen (s : State) : (s.begin).ilen = s.ilen := rfl
@[simp] theorem State.begin_done (s : State) : (s.begin).done = false := rfl
@[simp] theorem State.begin_err (s : State) : (s.begin).err = 0 := rfl
@[simp] theorem State.begin_olen (s : State) : (s.begin).olen = s.olen := rfl
@[simp] theorem State.begin_frame (s : State) : (s.begin).frame = s.frame := rfl
@[simp] theorem State.begin_nchunk (s : State) : (s.begin).nchunk = s.nchunk := rfl
@[simp] theorem State.begin_ibuf (s : State) : (s.begin).ibuf = s.ibuf := rfl
@[simp] theorem State.begin_obuf (s : State) : (s.begin).obuf = s.obuf := rfl
@[simp] theorem State.begin_events (s : State) : (s.begin).events = s.events := rfl
@[simp] theorem State.begin_rdata (s : State) : (s.begin).rdata = s.rdata := rfl
@[simp] theorem State.begin_era (s : State) : (s.begin).era = s.era := rfl
@[simp] theorem State.begin_draws (s : State) : (s.begin).draws = s.draws := rfl

@[simp] theorem State.tick_caps (s : State) : (s.tick).caps = s.caps := rfl
@[simp] theorem State.tick_phase (s : State) : (s.tick).phase = s.phase := rfl
@[simp] theorem State.tick_cmd (s : State) : (s.tick).cmd = s.cmd := rfl
@[simp] theorem State.tick_ilen (s : State) : (s.tick).ilen = s.ilen := rfl
@[simp] theorem State.tick_done (s : State) : (s.tick).done = s.done := rfl
@[simp] theorem State.tick_err (s : State) : (s.tick).err = s.err := rfl
@[simp] theorem State.tick_olen (s : State) : (s.tick).olen = s.olen := rfl
@[simp] theorem State.tick_frame (s : State) : (s.tick).frame = s.frame := rfl
@[simp] theorem State.tick_nchunk (s : State) : (s.tick).nchunk = s.nchunk := rfl
@[simp] theorem State.tick_ibuf (s : State) : (s.tick).ibuf = s.ibuf := rfl
@[simp] theorem State.tick_obuf (s : State) : (s.tick).obuf = s.obuf := rfl
@[simp] theorem State.tick_events (s : State) : (s.tick).events = s.events := rfl
@[simp] theorem State.tick_rdata (s : State) : (s.tick).rdata = s.rdata := rfl
@[simp] theorem State.tick_era (s : State) : (s.tick).era = s.era := rfl
@[simp] theorem State.tick_draws (s : State) : (s.tick).draws = s.draws + 1 := rfl

@[simp] theorem resetStep_caps (s : State) : (resetStep s).caps = s.caps := rfl
@[simp] theorem resetStep_phase (s : State) : (resetStep s).phase = .idle := rfl
@[simp] theorem resetStep_cmd (s : State) : (resetStep s).cmd = ⟨false, false, 0⟩ := rfl
@[simp] theorem resetStep_ilen (s : State) : (resetStep s).ilen = 0 := rfl
@[simp] theorem resetStep_done (s : State) : (resetStep s).done = false := rfl
@[simp] theorem resetStep_err (s : State) : (resetStep s).err = 0 := rfl
@[simp] theorem resetStep_olen (s : State) : (resetStep s).olen = 0 := rfl
@[simp] theorem resetStep_frame (s : State) : (resetStep s).frame = ⟨0, 0⟩ := rfl
@[simp] theorem resetStep_nchunk (s : State) : (resetStep s).nchunk = 0 := rfl
@[simp] theorem resetStep_ibuf (s : State) : (resetStep s).ibuf = [] := rfl
@[simp] theorem resetStep_obuf (s : State) : (resetStep s).obuf = [] := rfl
@[simp] theorem resetStep_events (s : State) : (resetStep s).events = s.events := rfl
@[simp] theorem resetStep_rdata (s : State) : (resetStep s).rdata = s.rdata := rfl
@[simp] theorem resetStep_era (s : State) : (resetStep s).era = s.era + 1 := rfl
@[simp] theorem resetStep_draws (s : State) : (resetStep s).draws = s.draws + 1 := rfl

end Sys2Proof.Machine
end

