-- ==== Sys2Proof/Laws/Ops.lean ====
section
/-! SUPPORT. Everything each shared operation of Machine/Ops.lean, Machine/HostAccess.lean and Machine/Step.lean can
do, said once: the provers cite these and do not unfold the operations. -/

namespace Sys2Proof.Machine

/-- Every command commits its operation's result by the one COMPLETE step. -/
theorem exec_eq_complete (i : Instr) (s : State) : exec i s = s.complete (operationOf i s) := by
  cases i <;> rfl

/-- How COMPLETE ends: with a result or with an error, or it faults on an unwritten byte. -/
theorem State.complete_next (s t : State) (r : Except Nat OpResult) (h : s.complete r = .next t) :
    (∃ out lcs sz count, r = .ok (.ok out lcs sz count) ∧ t = s.endWithResult out lcs sz count) ∨
    (∃ e, r = .ok (.err e) ∧ t = s.endWithError e) := by
  unfold State.complete at h
  split at h
  · cases h
  · cases h; exact .inr ⟨_, rfl, rfl⟩
  · cases h; exact .inl ⟨_, _, _, _, rfl, rfl⟩

/-- COMPLETE faults exactly on the first unwritten byte the operation reads. -/
theorem State.complete_fault (s : State) (r : Except Nat OpResult) (f : Fault) (h : s.complete r = .fault f) :
    ∃ a, r = .error a ∧ f = .unwrittenRead a := by
  unfold State.complete at h
  split at h <;> cases h
  exact ⟨_, rfl, rfl⟩

/-- COMPLETE refuses nothing. -/
theorem State.complete_not_refused (s : State) (r : Except Nat OpResult) (f : Refusal) :
    s.complete r ≠ .refused f := by
  unfold State.complete
  split <;> simp

/-- A command's next state is the result or the error of its operation (spec/10_state.md R41). -/
theorem exec_next (i : Instr) (s t : State) (h : exec i s = .next t) :
    (∃ out lcs sz count, operationOf i s = .ok (.ok out lcs sz count) ∧
      t = s.endWithResult out lcs sz count) ∨
    (∃ e, operationOf i s = .ok (.err e) ∧ t = s.endWithError e) :=
  s.complete_next t _ (exec_eq_complete i s ▸ h)

/-- What enc_op answers: an error of its tests, an unwritten byte, or the encoded file of the bytes read
(spec/43_encoder.md R168). -/
theorem encOp_cases (caps : Capacities) (n : Byte) (ilen : Nat) (ibuf : Memory) :
    (∃ e, encTests caps n ilen = .error e ∧ encOp caps n ilen ibuf = .ok (.err e)) ∨
    (∃ sz a, encTests caps n ilen = .ok sz ∧ ibuf.readBytes 0 ilen = .error a ∧
      encOp caps n ilen ibuf = .error a) ∨
    (∃ sz x, encTests caps n ilen = .ok sz ∧ ibuf.readBytes 0 ilen = .ok x ∧
      encOp caps n ilen ibuf = .ok (encResult sz x)) := by
  unfold encOp
  cases h : encTests caps n ilen with
  | error e => exact .inl ⟨e, rfl, rfl⟩
  | ok sz =>
    cases hr : ibuf.readBytes 0 ilen with
    | error a => exact .inr (.inl ⟨sz, a, rfl, rfl, rfl⟩)
    | ok x => exact .inr (.inr ⟨sz, x, rfl, rfl, rfl⟩)

/-- What dec_op answers: CapacityExceeded for a too long input, an unwritten byte, or what the bytes read decode to
(spec/44_decoder.md R190). -/
theorem decOp_cases (caps : Capacities) (fix : Bool) (ilen : Nat) (ibuf : Memory) :
    (caps.ibufBytes < ilen ∧ decOp caps fix ilen ibuf = .ok (.err .capacityExceeded)) ∨
    (∃ a, ilen ≤ caps.ibufBytes ∧ ibuf.readBytes 0 ilen = .error a ∧ decOp caps fix ilen ibuf = .error a) ∨
    (∃ y, ilen ≤ caps.ibufBytes ∧ ibuf.readBytes 0 ilen = .ok y ∧
      decOp caps fix ilen ibuf = .ok (decResult caps fix y)) := by
  unfold decOp decTests
  by_cases h : caps.ibufBytes < ilen
  · exact .inl ⟨h, by simp [h]⟩
  · simp only [if_neg h]
    cases hr : ibuf.readBytes 0 ilen with
    | error a => exact .inr (.inl ⟨a, by omega, rfl, rfl⟩)
    | ok y => exact .inr (.inr ⟨y, by omega, rfl, rfl⟩)

/-- ENC's tests pass exactly for a supported size that fits both capacities (spec/43_encoder.md R168). -/
theorem encTests_ok (caps : Capacities) (n : Byte) (ilen : Nat) (sz : CwSize) :
    encTests caps n ilen = .ok sz ↔
      n = sz.toByte ∧ ilen ≤ caps.ibufBytes ∧ encLength sz ilen ≤ caps.obufBytes := by
  unfold encTests
  rw [← CwSize.ofByte_eq_some]
  cases h : CwSize.ofByte n with
  | none => simp
  | some sz' =>
    simp only
    constructor
    · intro h
      split at h
      · cases h
      · split at h
        · cases h
        · cases h; exact ⟨rfl, by omega, by omega⟩
    · rintro ⟨h1, h2, h3⟩
      cases h1
      rw [if_neg (by omega), if_neg (by omega)]

/-- A decode that succeeds has passed every test, in terms of the input's header and length
(spec/44_decoder.md R180). -/
theorem decodeFile_ok (fix : Bool) (y : List Byte) (r : Decoded) (h : decodeFile fix y = .ok r) :
    headerBytes ≤ y.length ∧ y.take 7 = magic ∧ headerN y = r.size.toByte ∧ headerLcs y ≤ r.size.k ∧
      8 * (y.length - headerBytes) % r.size.n = 0 ∧ r.lcs = headerLcs y ∧
      r.count = 8 * (y.length - headerBytes) / r.size.n ∧
      r.data = pack (decodedBits r.size fix r.lcs (y.drop headerBytes)) := by
  unfold decodeFile at h
  split at h
  · cases h
  · rename_i h1
    simp only [not_or, not_lt, ne_eq, not_not] at h1
    split at h
    · cases h
    · rename_i sz hsz
      split at h
      · cases h
      · split at h
        · cases h
        · cases h
          exact ⟨h1.1, h1.2, (CwSize.ofByte_eq_some _ _).1 hsz, not_lt.1 ‹_›, not_not.1 ‹_›, rfl, rfl, rfl⟩

/-- The length of an encoded file (spec/43_encoder.md R163). -/
@[simp] theorem encodeFile_length (sz : CwSize) (x : List Byte) :
    (encodeFile sz x).file.length = encLength sz x.length := by
  simp [encodeFile, fileHeader, magic, encLength, encCount, headerBytes, payloadBits]
  omega

/-- The chunk count of an encoded file (spec/30_encoding.md R82). -/
@[simp] theorem encodeFile_count (sz : CwSize) (x : List Byte) :
    (encodeFile sz x).count = encCount sz x.length := by
  simp [encodeFile, encCount]

/-- START either begins the operation or is refused for an unwritten byte it would read. -/
theorem startStep_cases (s : State) :
    (s.unwrittenInput = none ∧ startStep s = .next s.begin) ∨
    (∃ a, s.unwrittenInput = some a ∧ startStep s = .refused (.unwrittenInput a)) := by
  unfold startStep
  cases h : s.unwrittenInput with
  | none => exact .inl ⟨rfl, rfl⟩
  | some a => exact .inr ⟨a, rfl, rfl⟩

/-- What a host access while IDLE can do to the block: begin an operation, store CMD, ILEN or one byte of IBUF, or
nothing; in each case OBUF, the result registers and the rest of the state but read data and draws stay. -/
theorem hostIdle_next (a : HostAccess) (s t : State) (h : hostIdle a s = .next t) :
    (∃ v, a = .writeReg 0 v ∧ v.getLsbD 0 = true ∧ s.tick.unwrittenInput = none ∧ t = s.tick.begin) ∨
    (∃ v, a = .writeReg 1 v ∧ t = { s.tick with cmd := CmdReg.ofWord v }) ∨
    (∃ v, a = .writeReg 2 v ∧ t = { s.tick with ilen := v }) ∨
    (∃ off v, a = .writeIbuf off v ∧ off < s.caps.ibufBytes ∧
      t = { s.tick with ibuf := s.ibuf.write off v }) ∨
    t = s.tick ∨ (∃ d, t = { s with rdata := some d }) := by
  cases a with
  | writeReg i v =>
    simp only [hostIdle] at h
    match i, h with
    | 0, h =>
      simp only [writeRegIdle] at h
      split at h
      · rcases startStep_cases s.tick with ⟨hu, hs⟩ | ⟨a, hu, hs⟩
        · rw [hs] at h; cases h
          exact .inl ⟨v, rfl, ‹_›, hu, rfl⟩
        · rw [hs] at h; cases h
      · cases h; simp
    | 1, h => cases h; exact .inr (.inl ⟨v, rfl, rfl⟩)
    | 2, h => cases h; exact .inr (.inr (.inl ⟨v, rfl, rfl⟩))
    | n + 3, h => cases h; simp
  | readReg i => cases h; exact .inr (.inr (.inr (.inr (.inr ⟨_, rfl⟩))))
  | writeIbuf off v =>
    simp only [hostIdle] at h
    split at h <;> cases h
    · exact .inr (.inr (.inr (.inl ⟨off, v, rfl, ‹_›, rfl⟩)))
    · simp
  | readIbuf off => cases h; exact .inr (.inr (.inr (.inr (.inr ⟨_, rfl⟩))))
  | writeObuf off v => cases h; simp
  | readObuf off => cases h; exact .inr (.inr (.inr (.inr (.inr ⟨_, rfl⟩))))

/-- A host access while BUSY moves the draw counter and at most the read data (spec/10_state.md R38). -/
theorem hostBusy_cases (a : HostAccess) (s : State) :
    hostBusy a s = s.tick ∨ ∃ d, hostBusy a s = { s.tick with rdata := some d } := by
  cases a
  · exact .inl rfl
  · exact .inr ⟨_, rfl⟩
  · exact .inl rfl
  · exact .inr ⟨_, rfl⟩
  · exact .inl rfl
  · exact .inr ⟨_, rfl⟩

/-- Everything a step that answers a next state can have done: COMPLETE of the command in CMD, no step of an IDLE
sequencer, a host access while IDLE or BUSY, or a reset (spec/10_state.md R36, R41). -/
theorem step_next (s t : State) (h : step s = .next t) :
    (∃ rest, (s.events = .sequencer :: rest ∨ (s.events = [] ∧ rest = [])) ∧
      ((s.phase = .busy ∧ exec s.command { s with events := rest, draws := s.draws + 1 } = .next t) ∨
        (s.phase = .idle ∧ t = { s with events := rest }))) ∨
    (∃ a rest, s.events = .host a :: rest ∧
      ((s.phase = .idle ∧ hostIdle a { s with events := rest } = .next t) ∨
        (s.phase = .busy ∧ t = hostBusy a { s with events := rest }))) ∨
    (∃ rest, s.events = .reset :: rest ∧ t = resetStep { s with events := rest }) := by
  unfold step at h
  split at h
  · rename_i he
    refine .inl ⟨[], .inr ⟨he, rfl⟩, ?_⟩
    unfold sequencerStep at h
    split at h
    · cases h; right; refine ⟨‹_›, ?_⟩; cases s; cases he; rfl
    · left; refine ⟨‹_›, ?_⟩; cases s; cases he; exact h
  · rename_i rest he
    refine .inl ⟨rest, .inl he, ?_⟩
    unfold sequencerStep at h
    split at h
    · cases h; exact .inr ⟨‹_›, rfl⟩
    · exact .inl ⟨‹_›, h⟩
  · rename_i a rest he
    refine .inr (.inl ⟨a, rest, he, ?_⟩)
    unfold hostStep at h
    split at h
    · exact .inl ⟨‹_›, h⟩
    · cases h; exact .inr ⟨‹_›, rfl⟩
  · rename_i rest he
    cases h
    exact .inr (.inr ⟨rest, he, rfl⟩)

end Sys2Proof.Machine
end

