-- ==== Sys2Proof/Laws/PerInstr.lean ====
section
/-! SUPPORT. Statements for all instructions, one lemma per constructor: family TableRow. -/

namespace Sys2Proof.Laws.TableRow

/-- The encoder's word of an instruction is selected by the instruction's row of the table and has every reserved
bit, [7:2] and [31:16], 0 (spec/30_encoding.md R70, R71). -/
def Statement (i : Instr) : Prop := i.row.selects (encode i) = true ∧ encode i &&& 0xFFFF00FC = 0

theorem encL1 (fix : Bool) : Statement (.encL1 fix) := by
  cases fix <;> exact ⟨by decide, by decide⟩

theorem encL2 (fix : Bool) : Statement (.encL2 fix) := by
  cases fix <;> exact ⟨by decide, by decide⟩

theorem encL3 (fix : Bool) : Statement (.encL3 fix) := by
  cases fix <;> exact ⟨by decide, by decide⟩

theorem decRaw (n : Byte) : Statement (.decRaw n) := by
  revert n; unfold Statement; decide +kernel

theorem decFix (n : Byte) : Statement (.decFix n) := by
  revert n; unfold Statement; decide +kernel

theorem encInv (n : Byte) (fix : Bool) : Statement (.encInv n fix) := by
  revert n; unfold Statement; cases fix <;> decide +kernel

end Sys2Proof.Laws.TableRow
end

