-- ==== Sys2Proof/Tests/Slice0.lean ====
section
/-! SUPPORT. Tests against spec/95_test_vectors.md and the worked examples of the rules, and for every statement with
hypotheses a witness: a concrete state and operands that meet all of them. -/

namespace Sys2Proof.Tests

open Sys2Proof Sys2Proof.Machine

/-! ### Well-formedness and the command words (spec/30_encoding.md R70, R71) -/

theorem test_wf_refuses_supported_inv :
    (Instr.encInv 4 false).wf = false ∧ (Instr.encInv 8 true).wf = false ∧ (Instr.encInv 16 false).wf = false := by
  decide

/-- Written out bit by bit: OP bit 0, FIX bit 1, N bits [15:8]. -/
theorem test_decode_bits :
    decode 0b00000000000000000000010000000000 = .encL1 false ∧
    decode 0b00000000000000000000100000000010 = .encL2 true ∧
    decode 0b00000000000000000001000000000000 = .encL3 false ∧
    decode 0b00000000000000000000010000000001 = .decRaw 4 ∧
    decode 0b00000000000000000001000000000011 = .decFix 16 ∧
    decode 0b00000000000000000010000000000000 = .encInv 32 false := by decide

/-- The reserved bits do not select (spec/95_test_vectors.md X2: 0xFFFF_08FC is ENC.L2). -/
theorem test_decode_reserved_bits_ignored : decode 0xFFFF08FC = .encL2 false ∧ decode 0xFFFF00FD = .decRaw 0 := by
  decide

/-- The rows but the fallback are disjoint (spec/30_encoding.md R71). -/
theorem test_rows_disjoint : (opcodeRows.take 5).Pairwise (fun r t => r.disjoint t = true) := by decide

theorem test_decode_too_wide : decodeTableWord 40 0x100000400 = none ∧ decodeTableWord 32 0x400 = some (.encL1 false) := by
  decide

/-! ### Helpers -/

/-- The next state, if there is one. -/
def nextOf (o : Host.Outcome State Fault Refusal) : Option State :=
  match o with
  | .next t => some t
  | _ => none

/-- A block with the given capacities that is BUSY with the command word `w` on the input `x`. -/
def busyWith (capacity : Nat) (w : Word) (x : List Byte) : State :=
  { State.reset with
    caps := ⟨capacity, capacity⟩
    phase := .busy
    cmd := CmdReg.ofWord w
    ilen := BitVec.ofNat 32 x.length
    ibuf := Memory.writeBytes [] 0 x }

/-- The same block, IDLE, with turns to come. -/
def idleWith (w : Word) (x : List Byte) (events : List Event) : State :=
  { busyWith 64 w x with phase := .idle, events := events }

/-- OBUF[0..OLEN), STATUS, FRAME and NCHUNK as a host reads them. -/
def seen (s : State) : List (Option Byte) × Nat × Nat × Nat :=
  ((List.range s.olen.toNat).map s.obuf.read, s.statusWord.toNat, s.frame.toWord.toNat, s.nchunk.toNat)

/-- `HDR(lcs, n)` of spec/95_test_vectors.md. -/
def hdr (lcs n : Byte) : List Byte := [0x68, 0x61, 0x6d, 0x6d, 0x69, 0x6e, 0x67, lcs, n]

/-- What a command leaves for the host to see. -/
def result (i : Instr) (s : State) : Option (List (Option Byte) × Nat × Nat × Nat) := (nextOf (exec i s)).map seen

/-! ### The commands (spec/95_test_vectors.md) -/

/-- Vector E1a. -/
theorem test_encL1_E1a :
    result (.encL1 false) (busyWith 64 0x400 [0x68]) =
      some ((hdr 1 4 ++ [0x00, 0xe0, 0xe0, 0x0e]).map some, 0x02, 0x0401, 8) := by decide +kernel

/-- Table X2: ENC.L1 of two bytes needs 17 bytes of OBUF. -/
theorem test_encL1_capacity : result (.encL1 true) (busyWith 16 0x400 [1, 2]) = some ([], 0x42, 0, 0) := by
  decide +kernel

/-- Vector E1b, with FIX = 1 as in table X2. -/
theorem test_encL2_E1b :
    result (.encL2 true) (busyWith 64 0x802 [0x68]) =
      some ((hdr 4 8 ++ [0x96, 0x66]).map some, 0x02, 0x0804, 2) := by decide +kernel

/-- Vector E0b, at the smallest capacities. -/
theorem test_encL2_empty : result (.encL2 false) (busyWith 9 0x800 []) = some ((hdr 0 8).map some, 0x02, 0x0800, 0) := by
  decide +kernel

/-- Vector E5c: six padding bits. -/
theorem test_encL3_E5c :
    result (.encL3 false) (busyWith 64 0x1000 [0x68, 0x69]) =
      some ((hdr 5 16 ++ [0x86, 0x2d, 0xcc, 0x00]).map some, 0x02, 0x1005, 2) := by decide +kernel

/-- Vector E9: 88 bits, no padding. -/
theorem test_encL3_E9 :
    result (.encL3 false) (busyWith 64 0x1000 [1, 2, 3, 4, 5, 6, 7, 8, 9, 10, 11]) =
      some ((hdr 11 16 ++ [0x1a, 0x41, 0x02, 0x0c, 0x14, 0x82, 0x34, 0x60, 0x00, 0x0f, 0x16, 0x42, 0x36, 0x50, 0x92,
        0x0a]).map some, 0x02, 0x100b, 8) := by decide +kernel

/-- Vector V6, row 1, uncorrected. -/
theorem test_decRaw_V6 :
    result (.decRaw 0) (busyWith 64 0x1 (hdr 4 8 ++ [0x9e, 0x67])) = some ([some 0x69], 0x02, 0x0804, 2) := by
  decide +kernel

/-- Table X1: an odd L3 payload. -/
theorem test_decRaw_X1_truncated :
    result (.decRaw 9) (busyWith 64 0x1 (hdr 8 16 ++ [0x94, 0x0c, 0x00])) = some ([], 0x32, 0, 0) := by decide +kernel

/-- Vector V6, row [15, 3] at L3, corrected. -/
theorem test_decFix_V6 :
    result (.decFix 0) (busyWith 64 0x3 (hdr 5 16 ++ [0x86, 0xad, 0xc4, 0x00])) =
      some ([some 0x68, some 0x69], 0x02, 0x1005, 2) := by decide +kernel

/-- Vector V10: two flips in one window are mis-corrected silently. -/
theorem test_decFix_V10 :
    result (.decFix 7) (busyWith 64 0x3 (hdr 4 8 ++ [0xbe, 0x66])) = some ([some 0x6f], 0x02, 0x0804, 2) := by
  decide +kernel

/-- Table X2: InvalidChunkSize wins over the input capacity (ILEN = 17 of 16). -/
theorem test_encInv_priority :
    result (.encInv 5 false) { busyWith 16 0x500 [] with ilen := 17 } = some ([], 0x12, 0, 0) := by decide +kernel

/-! ### The sub-blocks (spec/95_test_vectors.md V1 to V8) -/

theorem test_cwenc_V2 :
    cwenc .n4 [true] = bitsOf 4 0xE ∧ cwenc .n8 [true, false, true, true] = bitsOf 8 0xCC ∧
    cwenc .n16 (bitsOf 11 0x168) = bitsOf 16 0x2D86 := by decide +kernel

theorem test_syndrome_V3 :
    syndrome .n8 (bitsOf 8 0x9E) = 3 ∧ syndrome .n16 (bitsOf 16 0x8000) = 15 ∧ syndrome .n4 (bitsOf 4 0x6) = 3 := by
  decide +kernel

theorem test_correct_V5 :
    correct .n16 true (bitsOf 16 0x8096) = bitsOf 16 0x0096 ∧ correct .n8 true (bitsOf 8 0x97) = bitsOf 8 0x97 := by
  decide +kernel

theorem test_pack_windows_V7 :
    pack [false, false, false, true, false, true, true, false, false, false, false] = [0x68, 0x00] ∧
    windows 4 (unpack [0x96, 0x66]) = [bitsOf 4 6, bitsOf 4 9, bitsOf 4 6, bitsOf 4 6] := by decide +kernel

theorem test_corrupt_R200 : corrupt (hdr 4 8 ++ [0x96, 0x66]) [3, 0] = some (hdr 4 8 ++ [0x9e, 0x67]) := by
  decide +kernel

theorem test_corrupt_undefined : corrupt (hdr 4 8 ++ [0x96]) [8] = none ∧ corrupt (hdr 8 16 ++ [0x94]) [] = none := by
  decide +kernel

/-! ### Host accesses and steps -/

/-- A START of CMD = 0 after reset is accepted and ends with InvalidChunkSize (spec/70_reset_and_hazards.md R243). -/
theorem test_start_after_reset :
    (nextOf (core.run 2 { State.reset with events := [.host (.writeReg 0 1)] })).map seen = some ([], 0x12, 0, 0) := by
  decide +kernel

/-- Why a step was refused. -/
def refusalOf (o : Host.Outcome State Fault Refusal) : Option Refusal :=
  match o with
  | .refused r => some r
  | _ => none

/-- A START whose input has an unwritten byte is refused (spec/70_reset_and_hazards.md R253). -/
theorem test_start_refused :
    refusalOf (step { idleWith 0x800 [0x68] [.host (.writeReg 0 1)] with ilen := 2 }) = some (.unwrittenInput 1) := by
  decide +kernel

/-- Table X2: 0xFFFF_08FC written to CMD reads back 0x0000_0800. -/
theorem test_cmd_reads_back :
    (nextOf (core.run 2 (idleWith 0 [] [.host (.writeReg 1 0xFFFF08FC), .host (.readReg 1)]))).map (·.rdata) =
      some (some (.word 0x00000800)) := by decide +kernel

/-- Program P5: a CMD write while BUSY is lost, and STATUS reads 0x01. -/
theorem test_busy_write_dropped :
    (nextOf (core.run 2 { busyWith 64 0x3 [] with events := [.host (.writeReg 1 0x400), .host (.readReg 3)] })).map
      (fun t => (t.cmd, t.rdata)) = some (⟨true, true, 0⟩, some (.word 1)) := by decide +kernel

/-- Program P7: a reset while BUSY. -/
theorem test_reset_while_busy :
    (nextOf (step { busyWith 64 0x800 [0x68] with events := [.reset] })).map (fun t => (t.statusWord, t.cmd, t.ibuf)) =
      some (0, ⟨false, false, 0⟩, []) := by decide +kernel

/-- Program P2, FLIP 0 3: IBUF[9] 0x96 becomes 0x9e. -/
theorem test_flip_statement :
    ((HostStmt.flip 0 3).events (idleWith 0 (hdr 4 8 ++ [0x96, 0x66]) [])).bind (fun turns =>
      (nextOf (core.run 2 (idleWith 0 (hdr 4 8 ++ [0x96, 0x66]) turns))).map (·.ibuf.read 9)) =
      some (some 0x9e) := by decide +kernel

/-- FLIP has no meaning outside the operand conditions (spec/45_corruptor_environment.md R200, R203): position 8 and
window 2 of a file of two 8-bit windows, a partial window, a byte 8 that is no supported size. -/
theorem test_flip_partial :
    (HostStmt.flip 0 8).events (idleWith 0 (hdr 4 8 ++ [0x96, 0x66]) []) = none ∧
    (HostStmt.flip 2 0).events (idleWith 0 (hdr 4 8 ++ [0x96, 0x66]) []) = none ∧
    (HostStmt.flip 0 0).events (idleWith 0 (hdr 4 16 ++ [0x96]) []) = none ∧
    (HostStmt.flip 0 0).events (idleWith 0 (hdr 4 32 ++ [0x96, 0x66]) []) = none := by decide +kernel

/-- WAIT (spec/30_encoding.md R93): while BUSY two polls show 1 and the read after COMPLETE 2; while IDLE with DONE = 1 the
first read ends it; right after reset it never ends. -/
theorem test_wait_statement :
    ((HostStmt.wait 2).events (busyWith 64 0x800 [0x68])).bind (fun turns =>
      (nextOf (core.run 2 { busyWith 64 0x800 [0x68] with events := turns })).bind fun u =>
      (nextOf (core.run 2 u)).map fun t => (u.rdata, t.rdata, t.events)) =
      some (some (.word 1), some (.word 2), []) ∧
    (HostStmt.wait 2).events { idleWith 0 [] [] with done := true } = some [.host (.readReg 3)] ∧
    (HostStmt.wait 0).events State.reset = none := by decide +kernel

/-! ### Witnesses: the hypotheses of each statement are met -/

theorem witness_DecodeEncodeRoundTrip :
    (Instr.encInv 255 true).wf = true ∧ (Instr.encInv 0 false).wf = true ∧ (Instr.encL1 true).wf = true := by decide

theorem witness_StepRunsDecodedCommand :
    ((busyWith 64 0 []).phase = .busy ∧ (busyWith 64 0 []).events = []) ∧
    ({ busyWith 64 0 [] with events := [.sequencer] } : State).events = .sequencer :: [] ∧
    (0xFFFFFFFF < 2 ^ 32) ∧ (State.reset.phase = .idle ∧ State.reset.events = []) ∧
    (idleWith 0 [] [.sequencer, .reset]).events = .sequencer :: [.reset] := by decide

/-- Each clause: a result, an error, an unwritten byte. -/
theorem witness_CompleteAppliesOperationOfCmd :
    (∃ out lcs sz count, (busyWith 64 0x800 [0x68]).operation = .ok (.ok out lcs sz count)) ∧
    (busyWith 64 0x3 [0x68]).operation = .ok (.err .malformedHeader) ∧
    ({ busyWith 64 0x3 [] with ilen := 1 } : State).operation = .error 0 ∧
    (busyWith 64 0x800 [0x68]).phase = .busy ∧ (busyWith 64 0x800 [0x68]).events = [] :=
  ⟨⟨_, _, _, _, rfl⟩, rfl, rfl, rfl, rfl⟩

theorem witness_StartBeginsOperation :
    (idleWith 0x3 [0x68] [.host (.writeReg 0 0xFFFFFFFF)]).phase = .idle ∧ (0xFFFFFFFF : Word).getLsbD 0 = true ∧
    (∀ a < (idleWith 0x3 [0x68] []).ilen.toNat, (idleWith 0x3 [0x68] []).ibuf.read a ≠ none) ∧
    ({ idleWith 0x2000 [] [.host (.writeReg 0 1)] with ilen := 1 } : State).unwrittenInput = none ∧
    supportedN ({ idleWith 0x2000 [] [] with ilen := 1 } : State).cmd.n = false ∧
    ({ idleWith 0x1 [] [] with ilen := 65 } : State).caps.ibufBytes < 65 := by decide

/-- Both clauses: DEC of one unwritten byte reads it, ENC.INV reads nothing. -/
theorem witness_StartRefusedOnUnwrittenInput :
    (∃ s : State, s.phase = .idle ∧ s.events = [.host (.writeReg 0 1)] ∧
      (s.ilen.toNat ≤ s.caps.ibufBytes ∧ s.cmd.op = true) ∧ (∃ a < s.ilen.toNat, s.ibuf.read a = none)) ∧
    (∃ s : State, s.phase = .idle ∧ s.events = [.host (.writeReg 0 1)] ∧ s.cmd.op = false ∧
      ∀ sz, s.cmd.n ≠ BitVec.ofNat 8 (CwSize.n sz)) :=
  ⟨⟨{ idleWith 0x1 [] [.host (.writeReg 0 1)] with ilen := 64 }, by decide, by decide, by decide, ⟨63, by decide⟩⟩,
    ⟨idleWith 0x2000 [] [.host (.writeReg 0 1)], by decide, by decide, by decide, fun sz => by cases sz <;> decide⟩⟩

theorem witness_IdleRegisterWrites :
    ∀ i ∈ [0, 1, 2, 3, 6, 7], (idleWith 0 [] [.host (.writeReg i 2)]).phase = .idle ∧
      (idleWith 0 [] [.host (.writeReg i 2)]).events = .host (.writeReg i 2) :: [] ∧ (2 : Word).getLsbD 0 = false := by
  decide

theorem witness_CmdReadsBackMasked :
    (idleWith 0 [] [.host (.writeReg 1 5), .host (.readReg 1)]).events =
      .host (.writeReg 1 5) :: .host (.readReg 1) :: [] ∧
    (idleWith 0 [] [.host (.writeReg 1 5), .host (.readReg 1)]).phase = .idle := by decide

theorem witness_BusyWritesDropped :
    ∀ a ∈ [HostAccess.writeReg 0 1, .writeReg 1 0x400, .writeReg 2 5, .writeIbuf 0 7, .writeObuf 0 7],
      ({ busyWith 64 0 [] with events := [.host a] } : State).phase = .busy ∧
      ((∃ i v, a = .writeReg i v) ∨ (∃ off v, a = .writeIbuf off v) ∨ (∃ off v, a = .writeObuf off v)) := by
  simp [busyWith]

theorem witness_BusyReads :
    ({ busyWith 64 0 [] with events := [.host (.readReg 7)] } : State).phase = .busy ∧
    ({ busyWith 64 0 [] with events := [.host (.readObuf 64)] } : State).events = .host (.readObuf 64) :: [] ∧
    (busyWith 64 0 []).StatusGood := ⟨rfl, rfl, ⟨by decide, by decide, by decide⟩⟩

theorem witness_ReadsChangeNoState :
    (idleWith 0 [] [.host (.readIbuf 99), .host (.readIbuf 99)]).phase = .idle ∧
    (idleWith 0 [] [.host (.readIbuf 99), .host (.readIbuf 99)]).events =
      .host (.readIbuf 99) :: .host (.readIbuf 99) :: [] := by decide

/-- Each clause: inside at the last offset, outside at the first, a neighbour that is written. -/
theorem witness_IbufWriteReadsBack :
    (idleWith 0 [7] [.host (.writeIbuf 63 1), .host (.readIbuf 0)]).phase = .idle ∧
    63 < (idleWith 0 [7] []).caps.ibufBytes ∧ (idleWith 0 [7] []).caps.ibufBytes ≤ 64 ∧
    (idleWith 0 [7] []).ibuf.read 0 = some 7 := by decide

theorem witness_IdleBufferReads :
    ∀ a ∈ [0, 63, 64], (idleWith 0 [7] [.host (.readIbuf a)]).phase = .idle ∧
      (idleWith 0 [7] [.host (.readObuf a)]).events = .host (.readObuf a) :: [] := by decide

theorem witness_RegisterWordLayout :
    ∀ i ∈ [0, 1, 2, 3, 4, 5, 6, 7], (idleWith 0 [] [.host (.readReg i)]).phase = .idle ∧
      (idleWith 0 [] [.host (.readReg i)]).events = .host (.readReg i) :: [] := by decide

theorem witness_ResetLeavesTableValues :
    ({ busyWith 64 0x800 [0x68] with events := [.reset] } : State).events = .reset :: [] ∧
    ∃ t, step { busyWith 64 0x800 [0x68] with events := [.reset] } = .next t := ⟨rfl, _, rfl⟩

/-- A BUSY block with a one-byte input is a good state. -/
theorem busy_good : (busyWith 64 0x800 [0x68]).Inv :=
  ⟨by decide, ⟨by decide, by decide, by decide, by decide⟩, ⟨by decide, by decide, by decide⟩,
    ⟨by decide, by decide, by decide, by decide, .inl (by decide), by decide⟩, fun _ => rfl⟩

theorem witness_StepKeepsInvariant :
    (busyWith 64 0x800 [0x68]).Inv ∧ ∃ t, step (busyWith 64 0x800 [0x68]) = .next t := ⟨busy_good, _, rfl⟩

/-- A good IDLE block whose next turn is a START of DEC on nine unwritten bytes. -/
def unwrittenStart : State := { idleWith 0x1 [] [.host (.writeReg 0 1)] with ilen := 9 }

theorem unwrittenStart_good : unwrittenStart.Inv :=
  ⟨by decide, ⟨by decide, by decide, by decide, by decide⟩, ⟨by decide, by decide, by decide⟩,
    ⟨by decide, by decide, by decide, by decide, .inl (by decide), by decide⟩, fun h => absurd h (by decide)⟩

theorem witness_GoodStateNeverFaults :
    unwrittenStart.Inv ∧ ∃ r, step unwrittenStart = .refused r := ⟨unwrittenStart_good, _, rfl⟩

/-- Both clauses: a START and a reset clear DONE. -/
theorem witness_IndicationClearedOnlyByStartOrReset :
    ∀ e ∈ [Event.host (.writeReg 0 1), .reset],
      ({ idleWith 0 [] [e] with done := true } : State).phase = .idle ∧
      (nextOf (step { idleWith 0 [] [e] with done := true })).map (·.done) = some false := by decide +kernel

/-- Both clauses: COMPLETE and a reset write OLEN. -/
theorem witness_ResultsWrittenOnlyByComplete :
    (nextOf (step (busyWith 64 0x800 []))).map (·.olen) = some 9 ∧ (busyWith 64 0x800 []).olen ≠ 9 ∧
    (nextOf (step { idleWith 0 [] [.reset] with olen := 9 })).map (·.olen) = some 0 := by decide +kernel

theorem witness_InputsStableWhileBusy :
    (busyWith 64 0x800 [0x68]).phase = .busy ∧ (∃ t, step (busyWith 64 0x800 [0x68]) = .next t) ∧
    ∀ rest, (busyWith 64 0x800 [0x68]).events ≠ .reset :: rest := ⟨rfl, ⟨_, rfl⟩, fun _ h => nomatch h⟩

/-- At the capacity's edge: 9 + 4*1 = 13. -/
theorem witness_EncL1EncodesInput :
    (busyWith 13 0x400 [0x68]).caps.legal ∧ (busyWith 13 0x400 [0x68]).HasInput [0x68] ∧
    (busyWith 13 0x400 [0x68]).ilen.toNat ≤ 13 ∧ 9 + 4 * (busyWith 13 0x400 [0x68]).ilen.toNat ≤ 13 :=
  ⟨by decide, rfl, by decide, by decide⟩

/-- At the capacity's edge: 9 + 2*1 = 11. -/
theorem witness_EncL2EncodesInput :
    (busyWith 11 0x800 [0x68]).caps.legal ∧ (busyWith 11 0x800 [0x68]).HasInput [0x68] ∧
    (busyWith 11 0x800 [0x68]).ilen.toNat ≤ 11 ∧ 9 + 2 * (busyWith 11 0x800 [0x68]).ilen.toNat ≤ 11 :=
  ⟨by decide, rfl, by decide, by decide⟩

/-- At the capacity's edge, count 2 for two bytes: 9 + 2*2 = 13; and the empty input at 9 bytes. -/
theorem witness_EncL3EncodesInput :
    ((busyWith 13 0x1000 [0x68, 0x69]).caps.legal ∧ (busyWith 13 0x1000 [0x68, 0x69]).HasInput [0x68, 0x69] ∧
      8 * (busyWith 13 0x1000 [0x68, 0x69]).ilen.toNat ≤ 11 * 2 ∧
      11 * 2 < 8 * (busyWith 13 0x1000 [0x68, 0x69]).ilen.toNat + 11 ∧ 9 + 2 * 2 ≤ 13) ∧
    ((busyWith 9 0x1000 []).caps.legal ∧ (busyWith 9 0x1000 []).HasInput [] ∧ 9 + 2 * 0 ≤ 9) :=
  ⟨⟨by decide, rfl, by decide, by decide, by decide⟩, by decide, rfl, by decide⟩

theorem witness_EncInvEndsInvalidChunkSize : (0 : Byte) ≠ 4 ∧ (32 : Byte) ≠ 8 ∧ (255 : Byte) ≠ 16 := by decide

/-- Each clause just above a capacity. -/
theorem witness_EncCapacityExceeded :
    16 < ({ busyWith 16 0x400 [] with ilen := 17 } : State).ilen.toNat ∧
    16 < 9 + 4 * (busyWith 16 0x400 [1, 2]).ilen.toNat ∧
    16 < 9 + 2 * (busyWith 16 0x800 [1, 2, 3, 4]).ilen.toNat ∧
    16 < 9 + 2 * ((8 * (busyWith 16 0x1000 [1, 2, 3, 4, 5]).ilen.toNat + 10) / 11) := by decide

/-- Vector E1b's file; and a header with no window. -/
theorem witness_DecDecodesInput :
    ((busyWith 64 0x3 (hdr 4 8 ++ [0x96, 0x66])).caps.legal ∧
      (busyWith 64 0x3 (hdr 4 8 ++ [0x96, 0x66])).HasInput (hdr 4 8 ++ [0x96, 0x66]) ∧
      (hdr 4 8 ++ [0x96, 0x66])[7]? = some (BitVec.ofNat 8 4) ∧
      (hdr 4 8 ++ [0x96, 0x66])[8]? = some (BitVec.ofNat 8 CwSize.n8.n) ∧ 4 ≤ CwSize.n8.k ∧
      8 * ((busyWith 64 0x3 (hdr 4 8 ++ [0x96, 0x66])).ilen.toNat - 9) = 2 * CwSize.n8.n) ∧
    ((busyWith 9 0x3 (hdr 11 16)).HasInput (hdr 11 16) ∧ 8 * ((busyWith 9 0x3 (hdr 11 16)).ilen.toNat - 9) = 0 * CwSize.n16.n) :=
  ⟨⟨by decide, rfl, by decide, by decide, by decide, by decide⟩, rfl, by decide⟩

/-- Each clause of table X1 and X3: too long, too short, byte 8, byte 7, odd payload, output too long. -/
theorem witness_DecErrorsInOrder :
    16 < ({ busyWith 16 0x1 [] with ilen := 17 } : State).ilen.toNat ∧
    (busyWith 64 0x1 ((hdr 4 8).take 8)).HasInput ((hdr 4 8).take 8) ∧
    (busyWith 64 0x1 (hdr 0 2)).HasInput (hdr 0 2) ∧ supportedN (headerN (hdr 0 2)) = false ∧
    (busyWith 64 0x1 (hdr 5 8)).HasInput (hdr 5 8) ∧ CwSize.ofByte (headerN (hdr 5 8)) = some .n8 ∧
    CwSize.n8.k < headerLcs (hdr 5 8) ∧
    (busyWith 64 0x1 (hdr 8 16 ++ [0x94])).HasInput (hdr 8 16 ++ [0x94]) ∧
    8 * ((busyWith 64 0x1 (hdr 8 16 ++ [0x94])).ilen.toNat - 9) % CwSize.n16.n ≠ 0 ∧
    ({ busyWith 33 0x1 (hdr 4 8 ++ List.replicate 20 0) with caps := ⟨64, 9⟩ } : State).HasInput
      (hdr 4 8 ++ List.replicate 20 0) ∧
    9 < (8 * 20 / CwSize.n8.n * CwSize.n8.k - (CwSize.n8.k - 4) + 7) / 8 :=
  ⟨by decide, rfl, rfl, by decide, rfl, by decide, by decide, rfl, by decide, rfl, by decide⟩

theorem witness_DecodedLength :
    (∃ r, decodeFile true (hdr 4 8 ++ [0x96, 0x66]) = .ok r ∧ 0 < r.count) ∧
    ∃ r, decodeFile false (hdr 4 8) = .ok r ∧ r.count = 0 := ⟨⟨_, rfl, by decide⟩, _, rfl, rfl⟩

theorem witness_ErrorEndEffect :
    ∃ t, exec (.encInv 0 false) State.reset = .next t ∧ t.err ≠ 0 := ⟨_, rfl, by decide⟩

theorem witness_WhichCommandWhichError : supportedN 0 = false ∧ supportedN 255 = false := by decide

theorem witness_CommandFrame :
    State.reset.caps.legal ∧ ∃ t, exec (.encL1 false) State.reset = .next t ∧ t.olen = 9 := ⟨by decide, _, rfl, rfl⟩

theorem witness_ResultsFitRegisters :
    (busyWith 9 0x3 (hdr 4 8)).caps.legal ∧ ∃ t, exec (.decFix 0) (busyWith 9 0x3 (hdr 4 8)) = .next t ∧ t.err = 0 :=
  ⟨by decide, _, rfl, rfl⟩

/-- Two states that differ in CMD and OBUF, two commands that differ in an ignored field. -/
theorem witness_CommandDependsOnInputOnly :
    (Instr.decRaw 0).row = (Instr.decRaw 255).row ∧
    (busyWith 64 0x1 (hdr 4 8)).ilen = ({ busyWith 64 0xFF01 (hdr 4 8) with obuf := [(3, 7)] } : State).ilen ∧
    (∀ a < 9, (busyWith 64 0x1 (hdr 4 8)).ibuf.read a = (busyWith 64 0xFF01 (hdr 4 8)).ibuf.read a) ∧
    ∃ t, exec (.decRaw 0) (busyWith 64 0x1 (hdr 4 8)) = .next t := ⟨rfl, rfl, by decide, _, rfl⟩

theorem witness_RepeatEndsTheSame :
    ∃ t, exec (.encL2 false) (busyWith 64 0x800 [0x68]) = .next t ∧ t.obuf ≠ [] := ⟨_, rfl, by decide +kernel⟩

theorem witness_PositionMapLaws :
    ([true] : BitStream).length = CwSize.n4.k ∧ (bitsOf 16 0xFFFF).length = CwSize.n16.n ∧
    8 ∈ parityPositions .n16 := by decide

theorem witness_SyndromeLinear :
    (bitsOf 8 0x96).length = CwSize.n8.n ∧ (bitsOf 8 0xFF).length = CwSize.n8.n ∧ 7 < CwSize.n8.n := by decide

theorem witness_SyndromeRangeAndPositionZero : (bitsOf 16 0x8001).length = CwSize.n16.n := by decide

theorem witness_ParityMakesSyndromeZero :
    (bitsOf 8 0x80).length = CwSize.n8.n ∧ ∀ p ∈ parityPositions .n8, (bitsOf 8 0x80)[p]? = some false := by decide

theorem witness_ParityEquations : (bitsOf 11 0x168).length = CwSize.n16.k ∧ 3 < CwSize.n16.parityBits := by decide

theorem witness_ValidCodewords :
    (bitsOf 8 0x96).length = CwSize.n8.n ∧ (bitsOf 4 8).length = CwSize.n8.k ∧
    (bitsOf 8 0x96)[0]? = some false ∧ syndrome .n8 (bitsOf 8 0x96) = 0 := by decide

/-- Positions 0, parity and data of table V4a. -/
theorem witness_SingleErrorLaw :
    (bitsOf 4 8).length = CwSize.n8.k ∧ 0 < CwSize.n8.n ∧ 7 < CwSize.n8.n ∧ (dataPositions .n8)[3]? = some 7 := by decide

/-- Table V5: positions 3 and 5, and the masked 1, 2, 3. -/
theorem witness_BeyondOneError :
    [3, 5].Nodup ∧ (∀ e ∈ [3, 5], e < CwSize.n8.n) ∧ [3, 5].foldl (· ^^^ ·) 0 = 6 ∧ [1, 2, 3].foldl (· ^^^ ·) 0 = 0 := by
  decide

theorem witness_LastChunkSizeValues : 1 ≤ (unpack [0x68]).length ∧ ([0x68] : List Byte) ≠ [] := by decide

theorem witness_EncodedFileProperties : (encodeFile .n8 [0x68]).lcs = 4 ∧ (encodeFile .n8 [0x68]).count = 2 := by
  decide +kernel

theorem witness_CodewordPlacement :
    (frame CwSize.n8.k (unpack [0x68])).1[1]? = some [false, true, true, false] ∧ 7 < CwSize.n8.n := by decide

/-- ENC.L2 of one byte, its result moved to IBUF, DEC.FIX to come. -/
theorem witness_BlockRoundTrip :
    ∃ t, exec (.encL2 false) (busyWith 64 0x800 [0x68]) = .next t ∧ t.err = 0 ∧
      (busyWith 64 0x3 (hdr 4 8 ++ [0x96, 0x66])).ilen = t.olen ∧
      ∀ a < t.olen.toNat, (busyWith 64 0x3 (hdr 4 8 ++ [0x96, 0x66])).ibuf.read a = t.obuf.read a :=
  ⟨_, rfl, rfl, by decide +kernel, by decide +kernel⟩

theorem witness_SingleFlipResilience : ∃ y, corrupt (encodeFile .n8 [0x68]).file [3, 0] = some y :=
  ⟨hdr 4 8 ++ [0x9e, 0x67], by decide +kernel⟩

theorem witness_CorruptorGuarantees : ∃ z, corrupt (hdr 4 8 ++ [0x96, 0x66]) [7, 6] = some z :=
  ⟨hdr 4 8 ++ [0x16, 0x26], by decide +kernel⟩

theorem witness_HeaderFlipsRejected :
    (∃ r, decodeFile true (hdr 4 8 ++ [0x96, 0x66]) = .ok r) ∧ 7 < 8 := ⟨⟨_, rfl⟩, by decide⟩

theorem witness_PortsMatchFunctions : (0xFF : BitVec 16).toNat < 2 ^ CwSize.n8.n := by decide

theorem witness_LoadStatement :
    ∃ s : State, s.phase = .idle ∧ ([1, 2] : List Byte).length ≤ s.caps.ibufBytes ∧
      ∃ turns, (HostStmt.load [1, 2]).events s = some turns ∧ s.events = turns ++ [.reset] :=
  ⟨idleWith 0 [] [.host (.writeIbuf 0 1), .host (.writeIbuf 1 2), .host (.writeReg 2 2), .reset], rfl, by decide,
    _, rfl, rfl⟩

theorem witness_MoveStatement :
    ∃ s : State, s.phase = .idle ∧ s.olen.toNat = 1 ∧ s.olen.toNat ≤ s.caps.ibufBytes ∧
      s.olen.toNat ≤ s.caps.obufBytes ∧ (∀ a < s.olen.toNat, s.obuf.read a ≠ none) ∧
      ∃ turns, HostStmt.move.events s = some turns ∧ s.events = turns ++ [] :=
  ⟨{ idleWith 0 [] [.host (.readReg 4), .host (.readObuf 0), .host (.writeIbuf 0 7), .host (.writeReg 2 1)] with
      olen := 1, obuf := [(0, 7)] }, rfl, by decide, by decide, by decide, by decide, _, rfl, by decide⟩

/-- An IDLE block whose input is vector E1b's file. -/
def flipReady (events : List Event) : State := idleWith 0 (hdr 4 8 ++ [0x96, 0x66]) events

theorem flipReady_input (events : List Event) : (flipReady events).HasInput (hdr 4 8 ++ [0x96, 0x66]) := rfl

/-- The last position of the last window, its two turns to come; and the first position and window that do not exist. -/
theorem witness_FlipStatement :
    ∃ s : State, s.phase = .idle ∧ s.HasInput (hdr 4 8 ++ [0x96, 0x66]) ∧ s.ilen.toNat ≤ s.caps.ibufBytes ∧
      (hdr 4 8 ++ [0x96, 0x66])[8]? = some (BitVec.ofNat 8 CwSize.n8.n) ∧
      8 * (s.ilen.toNat - 9) = 2 * CwSize.n8.n ∧ 7 < CwSize.n8.n ∧ CwSize.n8.n ≤ 8 ∧
      (HostStmt.flip 1 7).events s = some [.host (.readIbuf 10), .host (.writeIbuf 10 0xe6)] ∧
      s.events = .host (.readIbuf 10) :: .host (.writeIbuf 10 0xe6) :: [] :=
  ⟨flipReady [.host (.readIbuf 10), .host (.writeIbuf 10 0xe6)], rfl, flipReady_input _, by decide, by decide,
    by decide, by decide, by decide, by decide +kernel, rfl⟩

/-- Each clause: DONE, BUSY with one poll to come, and the state after reset with a read to come. -/
theorem witness_WaitStatement :
    (({ idleWith 0 [] [.host (.readReg 3)] with done := true } : State).phase = .idle ∧
      ({ idleWith 0 [] [.host (.readReg 3)] with done := true } : State).events = .host (.readReg 3) :: []) ∧
    ((busyWith 64 0x800 [0x68]).phase = .busy ∧ (busyWith 64 0x800 [0x68]).unwrittenInput = none ∧
      ∃ turns, (HostStmt.wait 1).events (busyWith 64 0x800 [0x68]) = some turns ∧
        ({ busyWith 64 0x800 [0x68] with events := turns } : State).events = turns ++ []) ∧
    ((idleWith 0 [] [.host (.readReg 3)]).phase = .idle ∧ (idleWith 0 [] [.host (.readReg 3)]).done = false) :=
  ⟨by decide, ⟨rfl, rfl, _, rfl, by decide⟩, by decide⟩

end Sys2Proof.Tests
end

section
/-! SUPPORT. The fields of a command word, the decoder in terms of them, and the operation that CMD's fields name
(spec/30_encoding.md R70, R71; spec/10_state.md R41). -/

namespace Sys2Proof

/-- Each bit of a command word: OP, FIX, reserved, N (spec/30_encoding.md R70). -/
theorem getLsbD_commandWord (op fix : Bool) (n : Byte) (i : Nat) :
    (commandWord op fix n).getLsbD i =
      if i = 0 then op else if i = 1 then fix else decide (8 ≤ i) && n.getLsbD (i - 8) := by
  match i with
  | 0 => simp [commandWord]
  | 1 => simp [commandWord]
  | i + 2 =>
    by_cases hn : i - 6 < 8
    · simp only [commandWord, BitVec.getLsbD_or, BitVec.getLsbD_shiftLeft, BitVec.getLsbD_setWidth,
        BitVec.getLsbD_ofBool]
      grind
    · simp [commandWord, BitVec.getLsbD_of_ge n (i - 6) (by omega)]

/-- OP of a command word (spec/30_encoding.md R70). -/
@[simp] theorem wordOp_commandWord (op fix : Bool) (n : Byte) : wordOp (commandWord op fix n) = op :=
  getLsbD_commandWord op fix n 0

/-- FIX of a command word (spec/30_encoding.md R70). -/
@[simp] theorem wordFix_commandWord (op fix : Bool) (n : Byte) : wordFix (commandWord op fix n) = fix :=
  getLsbD_commandWord op fix n 1

/-- N of a command word (spec/30_encoding.md R70). -/
@[simp] theorem wordN_commandWord (op fix : Bool) (n : Byte) : wordN (commandWord op fix n) = n := by
  refine BitVec.eq_of_getLsbD_eq fun i hi => ?_
  simp [wordN, getLsbD_commandWord, hi, show 8 + i ≠ 1 by omega]

/-- A command word determines its fields. -/
theorem commandWord_inj {op fix op' fix' : Bool} {n n' : Byte} :
    commandWord op fix n = commandWord op' fix' n' ↔ op = op' ∧ fix = fix' ∧ n = n' := by
  constructor
  · intro h
    exact ⟨by simpa using congrArg wordOp h, by simpa using congrArg wordFix h, by simpa using congrArg wordN h⟩
  · rintro ⟨rfl, rfl, rfl⟩; rfl

/-- Masking a word with a command word masks field by field and clears the reserved bits. -/
theorem and_commandWord (w : Word) (op fix : Bool) (n : Byte) :
    w &&& commandWord op fix n = commandWord (wordOp w && op) (wordFix w && fix) (wordN w &&& n) := by
  refine BitVec.eq_of_getLsbD_eq fun i hi => ?_
  rw [BitVec.getLsbD_and, getLsbD_commandWord, getLsbD_commandWord]
  match i with
  | 0 => rfl
  | 1 => rfl
  | i + 2 =>
    by_cases hn : 6 ≤ i ∧ i < 14
    · obtain ⟨j, rfl⟩ := Nat.exists_eq_add_of_le hn.1
      simp [wordN, show j < 8 by omega, show 8 + j = 6 + j + 2 by omega]
    · simp only [wordN, BitVec.getLsbD_and, BitVec.getLsbD_extractLsb']
      grind

/-- The word with the fields of `w` is `w` with its reserved bits cleared (spec/30_encoding.md R70). -/
theorem commandWord_fields (w : Word) :
    commandWord (wordOp w) (wordFix w) (wordN w) = w &&& 0x0000FF03 := by
  have h := and_commandWord w true true (BitVec.allOnes 8)
  rw [Bool.and_true, Bool.and_true, BitVec.and_allOnes] at h
  exact h.symm

/-- A row whose mask and pattern are command words compares field by field. -/
theorem OpcodeRow.selects_iff (r : OpcodeRow) (w : Word) (op fix op' fix' : Bool) (n n' : Byte)
    (hm : r.mask = commandWord op fix n) (hp : r.pattern = commandWord op' fix' n') :
    r.selects w = true ↔ (wordOp w && op) = op' ∧ (wordFix w && fix) = fix' ∧ wordN w &&& n = n' := by
  rw [OpcodeRow.selects, beq_iff_eq, hm, hp, and_commandWord, commandWord_inj]

/-- A row of an encoder level looks at OP and at every bit of N. -/
theorem encRow_selects_iff (r : OpcodeRow) (w : Word) (n : Byte) (hm : r.mask = 0x0000FF01)
    (hp : r.pattern = commandWord false false n) : r.selects w = true ↔ wordOp w = false ∧ wordN w = n := by
  rw [OpcodeRow.selects_iff r w true false false false (BitVec.allOnes 8) n hm hp, BitVec.and_allOnes]
  simp

/-- A row of the decoder looks at OP and FIX. -/
theorem decRow_selects_iff (r : OpcodeRow) (w : Word) (fix : Bool) (hm : r.mask = 0x00000003)
    (hp : r.pattern = commandWord true fix 0) : r.selects w = true ↔ wordOp w = true ∧ wordFix w = fix := by
  rw [OpcodeRow.selects_iff r w true true true fix 0 0 hm hp]
  simp

/-- The decoder in terms of the fields of the word (spec/30_encoding.md R71, R84). -/
theorem decode_eq (w : Word) :
    decode w =
      if wordOp w = true then
        if wordFix w = true then .decFix (wordN w) else .decRaw (wordN w)
      else if wordN w = 4 then .encL1 (wordFix w)
      else if wordN w = 8 then .encL2 (wordFix w)
      else if wordN w = 16 then .encL3 (wordFix w)
      else .encInv (wordN w) (wordFix w) := by
  simp only [decode, encRow_selects_iff rowEncL1 w 4 rfl rfl, encRow_selects_iff rowEncL2 w 8 rfl rfl,
    encRow_selects_iff rowEncL3 w 16 rfl rfl, decRow_selects_iff rowDecRaw w false rfl rfl,
    decRow_selects_iff rowDecFix w true rfl rfl]
  cases wordOp w <;> cases wordFix w <;> simp

/-- The decoder looks at the fields only, so not at the reserved bits (spec/30_encoding.md R71). -/
theorem decode_commandWord_fields (w : Word) :
    decode (commandWord (wordOp w) (wordFix w) (wordN w)) = decode w := by
  simp [decode_eq]

end Sys2Proof

namespace Sys2Proof.Machine

/-- What CMD reads as after a write: the word without its reserved bits (spec/10_state.md R25). -/
@[simp] theorem CmdReg.toWord_ofWord (w : Word) : (CmdReg.ofWord w).toWord = w &&& 0x0000FF03 :=
  commandWord_fields w

/-- The operation of the command in CMD is the one CMD's fields name (spec/10_state.md R41). -/
theorem operationOf_command (s : State) : operationOf s.command s = s.operation := by
  simp only [State.command, CmdReg.toWord, decode_eq, wordOp_commandWord, wordFix_commandWord, wordN_commandWord,
    State.operation]
  cases s.cmd.op with
  | true => cases s.cmd.fix <;> rfl
  | false => simp only [Bool.false_eq_true, if_false]; split_ifs <;> simp [operationOf, *]

end Sys2Proof.Machine
end

section
/-! SUPPORT. The values of the register words, field by field (spec/10_state.md R25, R27, R29). -/

namespace Sys2Proof

/-- A field placed above the bits of a lower word adds up with it, since the two share no bit. -/
theorem toNat_field_or {m k : Nat} (hi : BitVec m) (lo : Word) (hlo : lo.toNat < 2 ^ k) (hfit : k + m ≤ 32) :
    (hi.setWidth 32 <<< k ||| lo).toNat = lo.toNat + 2 ^ k * hi.toNat := by
  have hm : hi.toNat < 2 ^ 32 := hi.isLt.trans_le (Nat.pow_le_pow_right (by decide) (by omega))
  have hshift : hi.toNat <<< k < 2 ^ 32 :=
    calc hi.toNat <<< k = 2 ^ k * hi.toNat := by rw [Nat.shiftLeft_eq, Nat.mul_comm]
      _ < 2 ^ k * 2 ^ m := Nat.mul_lt_mul_of_pos_left hi.isLt (Nat.two_pow_pos k)
      _ = 2 ^ (k + m) := (Nat.pow_add 2 k m).symm
      _ ≤ 2 ^ 32 := Nat.pow_le_pow_right (by decide) hfit
  rw [BitVec.toNat_or, BitVec.toNat_shiftLeft, BitVec.toNat_setWidth, Nat.mod_eq_of_lt hm, Nat.mod_eq_of_lt hshift,
    ← Nat.shiftLeft_add_eq_or_of_lt hlo, Nat.shiftLeft_eq, Nat.mul_comm, Nat.add_comm]

/-- The two one-bit fields at bits 1 and 0 of a register word. -/
theorem toNat_twoBits (b1 b0 : Bool) :
    ((BitVec.ofBool b1).setWidth 32 <<< 1 ||| (BitVec.ofBool b0).setWidth 32 : Word).toNat =
      b0.toNat + 2 * b1.toNat := by
  cases b1 <;> cases b0 <;> rfl

/-- The value of a command word, field by field (spec/30_encoding.md R70). -/
theorem toNat_commandWord (op fix : Bool) (n : Byte) :
    (commandWord op fix n).toNat = op.toNat + 2 * fix.toNat + 256 * n.toNat := by
  have hop := op.toNat_lt
  have hfix := fix.toNat_lt
  rw [commandWord, BitVec.or_assoc, toNat_field_or n _ (by rw [toNat_twoBits]; omega) (by decide), toNat_twoBits]
  norm_num

end Sys2Proof

namespace Sys2Proof.Machine

/-- The value of STATUS, field by field (spec/10_state.md R27). -/
theorem State.toNat_statusWord (s : State) :
    s.statusWord.toNat = s.busy.toNat + 2 * s.done.toNat + 16 * s.err.toNat := by
  have hbusy := s.busy.toNat_lt
  have hdone := s.done.toNat_lt
  rw [State.statusWord, BitVec.or_assoc, toNat_field_or s.err _ (by rw [toNat_twoBits]; omega) (by decide),
    toNat_twoBits]
  norm_num

/-- STATUS.DONE is bit 1 of STATUS. -/
theorem State.getLsbD_statusWord_done (s : State) : s.statusWord.getLsbD 1 = s.done := by
  simp [State.statusWord]

/-- The value of FRAME, field by field (spec/10_state.md R29). -/
theorem FrameReg.toNat_toWord (f : FrameReg) : f.toWord.toNat = f.lcs.toNat + 256 * f.n.toNat := by
  have hlcs : (f.lcs.setWidth 32).toNat = f.lcs.toNat := BitVec.toNat_setWidth_of_le (by decide)
  rw [FrameReg.toWord, toNat_field_or f.n _ (by rw [hlcs]; exact f.lcs.isLt) (by decide), hlcs]
  norm_num

end Sys2Proof.Machine
end

section
/-! SUPPORT. The equation of a step for each kind of turn, and what each kind of access answers
(spec/10_state.md R36 to R41). -/

namespace Sys2Proof.Machine

variable {s : State} {a : HostAccess} {rest : List Event}

/-- Giving a state the turns it already has changes nothing. -/
theorem State.withEvents_self (he : s.events = rest) : { s with events := rest } = s := by subst he; rfl

/-- The sequencer's turn of a BUSY block. -/
theorem step_sequencer_busy (hp : s.phase = .busy)
    (he : s.events = .sequencer :: rest ∨ (s.events = [] ∧ rest = [])) :
    step s = exec s.command { s with events := rest, draws := s.draws + 1 } := by
  rcases he with he | ⟨he, rfl⟩
  · simp only [step, he, sequencerStep, hp]; rfl
  · simp [step, he, sequencerStep, hp, State.tick]

/-- The sequencer's turn of an IDLE block. -/
theorem step_sequencer_idle (hp : s.phase = .idle)
    (he : s.events = .sequencer :: rest ∨ (s.events = [] ∧ rest = [])) :
    step s = .next { s with events := rest } := by
  rcases he with he | ⟨he, rfl⟩
  · simp [step, he, sequencerStep, hp]
  · rw [State.withEvents_self he]; simp [step, he, sequencerStep, hp]

/-- A host turn of an IDLE block. -/
theorem step_host_idle (hp : s.phase = .idle) (he : s.events = .host a :: rest) :
    step s = hostIdle a { s with events := rest } := by
  simp [step, he, hostStep, hp]

/-- A host turn of a BUSY block. -/
theorem step_host_busy (hp : s.phase = .busy) (he : s.events = .host a :: rest) :
    step s = .next (hostBusy a { s with events := rest }) := by
  simp [step, he, hostStep, hp]

/-- A register read of an IDLE block. -/
theorem step_readReg_idle {i : Nat} (hp : s.phase = .idle) (he : s.events = .host (.readReg i) :: rest) :
    step s = .next { s with events := rest, rdata := some (.word (s.regWord i)) } :=
  step_host_idle hp he

/-- A read of IBUF by the host of an IDLE block. -/
theorem step_readIbuf_idle {off : Nat} (hp : s.phase = .idle) (he : s.events = .host (.readIbuf off) :: rest) :
    step s = .next { s with events := rest, rdata := some (.byte (s.hostByte .ibuf off)) } :=
  step_host_idle hp he

/-- A read of OBUF by the host of an IDLE block. -/
theorem step_readObuf_idle {off : Nat} (hp : s.phase = .idle) (he : s.events = .host (.readObuf off) :: rest) :
    step s = .next { s with events := rest, rdata := some (.byte (s.hostByte .obuf off)) } :=
  step_host_idle hp he

/-- A write to IBUF by the host of an IDLE block stores the byte inside the buffer and is ignored outside
(spec/10_state.md R37). -/
theorem step_writeIbuf_idle {off : Nat} {v : Byte} (hp : s.phase = .idle)
    (he : s.events = .host (.writeIbuf off v) :: rest) :
    step s = .next { s with
      ibuf := if off < s.caps.ibufBytes then s.ibuf.write off v else s.ibuf
      events := rest, draws := s.draws + 1 } := by
  rw [step_host_idle hp he, hostIdle]
  split <;> simp [State.tick, *]

/-- A reset turn. -/
theorem step_reset (he : s.events = .reset :: rest) : step s = .next (resetStep { s with events := rest }) := by
  simp [step, he]

/-- COMPLETE commits the operation that CMD's fields name (spec/10_state.md R41). -/
theorem step_complete (hp : s.phase = .busy)
    (he : s.events = .sequencer :: rest ∨ (s.events = [] ∧ rest = [])) :
    step s = { s with events := rest, draws := s.draws + 1 }.complete s.operation := by
  rw [step_sequencer_busy hp he, exec_eq_complete]
  exact congrArg _ (operationOf_command { s with events := rest, draws := s.draws + 1 })

/-- A write to CTRL with bit 0 set is the START step (spec/10_state.md R24). -/
theorem hostIdle_start {v : Word} (hv : v.getLsbD 0 = true) (s : State) :
    hostIdle (.writeReg 0 v) s = startStep s.tick := if_pos hv

/-- A write to CTRL with bit 0 clear does nothing (spec/10_state.md R24). -/
theorem hostIdle_ctrl_clear {v : Word} (hv : v.getLsbD 0 = false) (s : State) :
    hostIdle (.writeReg 0 v) s = .next s.tick := if_neg (Bool.eq_false_iff.1 hv)

/-- A write to a register the host cannot store to does nothing (spec/10_state.md R37). -/
theorem hostIdle_writeReg_ignored {i : Nat} (hi : 3 ≤ i) (v : Word) (s : State) :
    hostIdle (.writeReg i v) s = .next s.tick := by
  obtain ⟨k, rfl⟩ := Nat.exists_eq_add_of_le' hi
  rfl

/-- A read of a register index above 6 gives 0 (spec/10_state.md R23, R37). -/
theorem State.regWord_above {i : Nat} (hi : 6 < i) (s : State) : s.regWord i = 0 := by
  obtain ⟨k, rfl⟩ := Nat.exists_eq_add_of_le' (show 7 ≤ i from hi)
  rfl

/-- A START whose operation reads no unwritten byte begins the operation (spec/10_state.md R40). -/
theorem startStep_next {s : State} (hu : s.unwrittenInput = none) : startStep s = .next s.begin := by
  rw [startStep, hu]

/-- What a read of register `i` returns while BUSY (spec/10_state.md R38). -/
theorem State.busyRegWord_eq (s : State) (i : Nat) :
    s.busyRegWord i =
      if i = 0 then 0 else if i = 1 then s.cmd.toWord else if i = 2 then s.ilen
      else if i = 3 then s.statusWord else Config.busyWord s.draws := by
  match i with
  | 0 | 1 | 2 | 3 => rfl
  | i + 4 => simp [State.busyRegWord]

/-- What a read of a buffer byte returns while IDLE (spec/10_state.md R37). -/
theorem State.hostByte_eq (s : State) (b : BufferId) (a : Nat) :
    s.hostByte b a =
      if a < s.capacity b then ((s.buffer b).read a).getD (Config.unwrittenByte b s.era a)
      else Config.absentByte b s.draws a := by
  unfold State.hostByte
  cases (s.buffer b).read a <;> rfl

/-- A read of a written byte inside the buffer returns it. -/
theorem State.hostByte_of_read {s : State} {b : BufferId} {a : Nat} {v : Byte} (ha : a < s.capacity b)
    (hv : (s.buffer b).read a = some v) : s.hostByte b a = v := by
  rw [State.hostByte_eq, if_pos ha, hv, Option.getD_some]

/-- A read after a write that may have been ignored. -/
theorem Memory.read_ite_write (m : Memory) (a : Nat) (v : Byte) (p : Prop) [Decidable p] (c : Nat) :
    (if p then m.write a v else m).read c = if p ∧ c = a then some v else m.read c := by
  by_cases hp : p
  · simp [hp, Memory.read_write]
  · simp [hp]

end Sys2Proof.Machine
end

section
/-! SUPPORT. Which operations read no unwritten byte, and what no host access and no command writes
(spec/93_implementation_defined.md U1; spec/10_state.md R28 to R32). -/

namespace Sys2Proof.Machine

/-- Every input byte the operation reads is written exactly when the operation answers. -/
theorem State.unwrittenInput_eq_none (s : State) :
    s.unwrittenInput = none ↔ ∃ r, s.operation = .ok r := by
  unfold State.unwrittenInput
  cases s.operation <;> simp

/-- An operation whose input is all written reads no unwritten byte (spec/70_reset_and_hazards.md R243). -/
theorem State.unwrittenInput_of_written {s : State} (h : ∀ a < s.ilen.toNat, s.ibuf.read a ≠ none) :
    s.unwrittenInput = none := by
  have hread : ∀ e, s.ibuf.readBytes 0 s.ilen.toNat ≠ .error e := fun e he => by
    obtain ⟨-, hlt, hnone, -⟩ := Memory.readBytes_error _ _ _ _ he
    exact h e (by omega) hnone
  rw [State.unwrittenInput_eq_none, State.operation]
  split
  · rcases decOp_cases s.caps s.cmd.fix s.ilen.toNat s.ibuf with ⟨-, hr⟩ | ⟨e, -, he, -⟩ | ⟨y, -, -, hr⟩
    · exact ⟨_, hr⟩
    · exact absurd he (hread e)
    · exact ⟨_, hr⟩
  · rcases encOp_cases s.caps s.cmd.n s.ilen.toNat s.ibuf with ⟨e, -, hr⟩ | ⟨_, e, -, he, -⟩ | ⟨_, y, -, -, hr⟩
    · exact ⟨_, hr⟩
    · exact absurd he (hread e)
    · exact ⟨_, hr⟩

/-- ENC with an unsupported N ends before any other test (spec/43_encoder.md R169). -/
theorem encOp_unsupported (caps : Capacities) (ilen : Nat) (ibuf : Memory) {n : Byte} (h : supportedN n = false) :
    encOp caps n ilen ibuf = .ok (.err .invalidChunkSize) := by
  simp [encOp, encTests, (CwSize.ofByte_eq_none n).2 h]

/-- An ENC with an unsupported N reads no byte (spec/43_encoder.md R169). -/
theorem State.unwrittenInput_of_unsupported {s : State} (hop : s.cmd.op = false) (hn : supportedN s.cmd.n = false) :
    s.unwrittenInput = none := by
  rw [State.unwrittenInput_eq_none, State.operation, hop, if_neg Bool.false_ne_true, encOp_unsupported _ _ _ hn]
  exact ⟨_, rfl⟩

/-- An operation whose ILEN exceeds IBUF reads no byte (spec/93_implementation_defined.md U1). -/
theorem State.unwrittenInput_of_tooLong {s : State} (h : s.caps.ibufBytes < s.ilen.toNat) :
    s.unwrittenInput = none := by
  rw [State.unwrittenInput_eq_none, State.operation]
  split
  · rcases decOp_cases s.caps s.cmd.fix s.ilen.toNat s.ibuf with ⟨-, hr⟩ | ⟨_, hle, -⟩ | ⟨_, hle, -⟩
    · exact ⟨_, hr⟩
    all_goals omega
  · rcases encOp_cases s.caps s.cmd.n s.ilen.toNat s.ibuf with ⟨e, -, hr⟩ | ⟨sz, _, ht, -⟩ | ⟨sz, _, ht, -⟩
    · exact ⟨_, hr⟩
    all_goals
      obtain ⟨-, hle, -⟩ := (encTests_ok ..).1 ht
      omega

/-- No host access to an IDLE block, a START included, writes a result (spec/10_state.md R28 to R32). -/
theorem hostIdle_keeps_results {a : HostAccess} {s t : State} (h : hostIdle a s = .next t) :
    t.olen = s.olen ∧ t.frame = s.frame ∧ t.nchunk = s.nchunk ∧ t.obuf = s.obuf := by
  rcases hostIdle_next a s t h with
    ⟨_, -, -, -, rfl⟩ | ⟨_, -, rfl⟩ | ⟨_, -, rfl⟩ | ⟨_, _, -, -, rfl⟩ | rfl | ⟨_, rfl⟩ <;>
    exact ⟨rfl, rfl, rfl, rfl⟩

/-- No host access to a BUSY block writes a result (spec/10_state.md R38). -/
theorem hostBusy_keeps_results (a : HostAccess) (s : State) :
    (hostBusy a s).olen = s.olen ∧ (hostBusy a s).frame = s.frame ∧ (hostBusy a s).nchunk = s.nchunk ∧
      (hostBusy a s).obuf = s.obuf := by
  rcases hostBusy_cases a s with h | ⟨_, h⟩ <;> rw [h] <;> exact ⟨rfl, rfl, rfl, rfl⟩

/-- COMPLETE ends IDLE (spec/10_state.md R41). -/
theorem exec_next_idle {i : Instr} {s t : State} (h : exec i s = .next t) : t.phase = .idle := by
  rcases exec_next i s t h with ⟨_, _, _, _, -, rfl⟩ | ⟨_, -, rfl⟩ <;> rfl

/-- No command changes its inputs, the capacities or the model's own fields (spec/10_state.md R31, R41). -/
theorem exec_operationFrame {i : Instr} {s t : State} (h : exec i s = .next t) : OperationFrame s t := by
  rcases exec_next i s t h with ⟨_, _, _, _, -, rfl⟩ | ⟨_, -, rfl⟩ <;> exact ⟨rfl, rfl, rfl, rfl, rfl, rfl, rfl, rfl⟩

end Sys2Proof.Machine
end

section
/-! SUPPORT. The bounds of a result (spec/60_exceptions.md R218) and the invariant, one lemma per operation of the
block; StepKeepsInvariant and ResetStateGood are settled from them. -/

namespace Sys2Proof.Machine

/-- The last chunk has at most k data bits (spec/42_chunk_framer_and_packing.md R144). -/
theorem frame_lcs_le (k : Nat) (hk : 0 < k) (b : BitStream) : (frame k b).2 ≤ k := by
  unfold frame
  split
  · exact Nat.zero_le k
  · have hcover : b.length ≤ k * ceilDiv b.length k := Nat.mul_comm .. ▸ le_ceilDiv_mul b.length k hk
    show b.length - k * (ceilDiv b.length k - 1) ≤ k
    rw [Nat.mul_sub, Nat.mul_one]
    omega

/-- The least codeword size is 4. -/
theorem CwSize.four_le_n (sz : CwSize) : 4 ≤ sz.n := by cases sz <;> decide

/-- A result keeps the bounds of spec/60_exceptions.md R218 and its LCS is at most k (spec/10_state.md R29). -/
structure ResultFits (caps : Capacities) (out : List Byte) (lcs : Nat) (sz : CwSize) (count : Nat) : Prop where
  length_le : out.length ≤ caps.obufBytes
  lcs_le : lcs ≤ sz.k
  count_le : count ≤ 2 * max caps.ibufBytes caps.obufBytes

/-- A result of ENC is within the bounds: its capacity test passed, and a codeword fills at least 4 bits of OBUF. -/
theorem encOp_fits {caps : Capacities} {n : Byte} {ilen : Nat} {ibuf : Memory} {out : List Byte} {lcs : Nat}
    {sz : CwSize} {count : Nat} (h : encOp caps n ilen ibuf = .ok (.ok out lcs sz count)) :
    ResultFits caps out lcs sz count := by
  rcases encOp_cases caps n ilen ibuf with ⟨_, -, hr⟩ | ⟨_, _, -, -, hr⟩ | ⟨sz', x, ht, hx, hr⟩
  · simp [hr] at h
  · simp [hr] at h
  · obtain ⟨hlen, -⟩ := (Memory.readBytes_ok ..).1 hx
    obtain ⟨-, -, hcap⟩ := (encTests_ok ..).1 ht
    rw [hr] at h
    cases h
    have hout : encLength sz x.length ≤ caps.obufBytes := hlen ▸ hcap
    refine ⟨(encodeFile_length sz x).trans_le hout, frame_lcs_le _ sz.k_pos _, ?_⟩
    have hbits := le_ceilDiv_mul (encCount sz x.length * sz.n) 8 (by decide)
    have hn := Nat.mul_le_mul_left (encCount sz x.length) sz.four_le_n
    rw [encodeFile_count]
    simp only [encLength] at hout
    omega

/-- A result of DEC is within the bounds: it passed its own capacity test, and a window fills at least 4 bits of
IBUF. -/
theorem decOp_fits {caps : Capacities} {fix : Bool} {ilen : Nat} {ibuf : Memory} {out : List Byte} {lcs : Nat}
    {sz : CwSize} {count : Nat} (h : decOp caps fix ilen ibuf = .ok (.ok out lcs sz count)) :
    ResultFits caps out lcs sz count := by
  rcases decOp_cases caps fix ilen ibuf with ⟨-, hr⟩ | ⟨_, -, -, hr⟩ | ⟨y, hcap, hy, hr⟩
  · simp [hr] at h
  · simp [hr] at h
  · obtain ⟨hlen, -⟩ := (Memory.readBytes_ok ..).1 hy
    rw [hr, Except.ok.injEq, decResult] at h
    split at h
    · cases h
    · rename_i r hdec
      split at h
      · cases h
      · cases h
        obtain ⟨-, -, -, hlcs, -, hlcs', hcount, -⟩ := decodeFile_ok _ _ _ hdec
        refine ⟨by omega, hlcs' ▸ hlcs, ?_⟩
        have hn := Nat.div_le_div_left (a := 8 * (y.length - headerBytes)) r.size.four_le_n (by decide)
        omega

/-- A result of any command is within the bounds. -/
theorem operationOf_fits {i : Instr} {s : State} {out : List Byte} {lcs : Nat} {sz : CwSize} {count : Nat}
    (h : operationOf i s = .ok (.ok out lcs sz count)) : ResultFits s.caps out lcs sz count := by
  cases i with
  | encL1 | encL2 | encL3 | encInv => exact encOp_fits h
  | decRaw | decFix => exact decOp_fits h

/-- The invariant says nothing of the model's own fields. -/
theorem State.Inv.ofOwnFields {s : State} (h : s.Inv) (events : List Event) (rdata : Option ReadData)
    (draws : Nat) : ({ s with events := events, rdata := rdata, draws := draws } : State).Inv where
  caps := h.caps
  buffers := { h.buffers with }
  status := { h.status with }
  result := { h.result with }
  input_written := h.input_written

/-! STATUS.BUSY after each operation of the block. -/

@[simp] theorem State.busy_begin (s : State) : s.begin.busy = true := rfl
@[simp] theorem State.busy_endWithError (s : State) (e : ErrorCode) : (s.endWithError e).busy = false := rfl
@[simp] theorem State.busy_endWithResult (s : State) (out : List Byte) (lcs : Nat) (sz : CwSize) (count : Nat) :
    (s.endWithResult out lcs sz count).busy = false := rfl
@[simp] theorem State.busy_resetStep (s : State) : (resetStep s).busy = false := rfl

/-- Result registers that are all 0 are good, whatever OBUF holds. -/
theorem State.resultGood_of_zero {s : State} (holen : s.olen = 0) (hframe : s.frame = ⟨0, 0⟩)
    (hnchunk : s.nchunk = 0) : s.ResultGood where
  err_zero _ := ⟨holen, hframe, hnchunk⟩
  fresh_zero _ _ := ⟨holen, hframe, hnchunk⟩
  olen_bound := by simp [holen]
  nchunk_bound := by simp [hnchunk]
  frame_good := .inl ⟨hframe, hnchunk⟩
  result_written := by simp [holen]

/-- While IDLE the host may store CMD, ILEN and IBUF, as long as IBUF stays canonical and inside the buffer. -/
theorem State.Inv.setInputs {s : State} (h : s.Inv) (hp : s.phase = .idle) (cmd : CmdReg) (ilen : Word)
    {ibuf : Memory} (hwf : ibuf.wf) (hwithin : ibuf.within s.caps.ibufBytes) :
    ({ s with cmd := cmd, ilen := ilen, ibuf := ibuf } : State).Inv where
  caps := h.caps
  buffers := { h.buffers with ibuf_wf := hwf, ibuf_within := hwithin }
  status := { h.status with }
  result := { h.result with }
  input_written hb := by simp [State.busy, hp] at hb

/-- START keeps the invariant when the operation reads no unwritten byte (spec/10_state.md R40). -/
theorem State.Inv.after_begin {s : State} (h : s.Inv) (hu : s.unwrittenInput = none) : s.begin.Inv where
  caps := h.caps
  buffers := { h.buffers with }
  status := ⟨by simp, by simp, by simp⟩
  result := { h.result with err_zero := by simp, fresh_zero := by simp }
  input_written _ := hu

/-- Reset keeps the invariant (spec/10_state.md R42). -/
theorem State.Inv.after_resetStep {s : State} (h : s.Inv) : (resetStep s).Inv where
  caps := h.caps
  buffers := ⟨by simp, by simp, by simp, by simp⟩
  status := ⟨by simp, by simp, by simp⟩
  result := State.resultGood_of_zero rfl rfl rfl
  input_written := by simp

/-- The error codes are 1 to 4 (spec/60_exceptions.md R211). -/
theorem ErrorCode.code_le (e : ErrorCode) : e.code.toNat ≤ 4 := by cases e <;> decide

/-- Ending with an error keeps the invariant (spec/60_exceptions.md R220). -/
theorem State.Inv.after_endWithError {s : State} (h : s.Inv) (e : ErrorCode) : (s.endWithError e).Inv where
  caps := h.caps
  buffers := { h.buffers with }
  status := ⟨by simp, by simp, e.code_le⟩
  result := State.resultGood_of_zero rfl rfl rfl
  input_written := by simp

/-- Committing a result within the bounds keeps the invariant (spec/10_state.md R41). -/
theorem State.Inv.after_endWithResult {s : State} (h : s.Inv) {out : List Byte} {lcs : Nat} {sz : CwSize} {count : Nat}
    (hfit : ResultFits s.caps out lcs sz count) : (s.endWithResult out lcs sz count).Inv where
  caps := h.caps
  buffers := { h.buffers with
    obuf_wf := s.obuf.writeBytes_wf out 0 h.buffers.obuf_wf
    obuf_within := Memory.writeBytes_within out _ _ 0 h.buffers.obuf_within (by simpa using hfit.length_le) }
  status := ⟨by simp, by simp, by simp⟩
  result :=
    { err_zero := by simp
      fresh_zero := by simp
      olen_bound := (Nat.mod_le ..).trans hfit.length_le
      nchunk_bound := (Nat.mod_le ..).trans hfit.count_le
      frame_good := .inr ⟨sz, rfl, (Nat.mod_le ..).trans hfit.lcs_le⟩
      result_written := fun a ha => by
        have hlt : a < out.length := ha.trans_le (Nat.mod_le ..)
        simp [Memory.read_writeBytes, hlt] }
  input_written := by simp

/-- COMPLETE of any command keeps the invariant. -/
theorem State.Inv.after_exec {s t : State} (h : s.Inv) {i : Instr} (hx : exec i s = .next t) : t.Inv := by
  rcases exec_next i s t hx with ⟨_, _, _, _, hr, rfl⟩ | ⟨e, -, rfl⟩
  · exact h.after_endWithResult (operationOf_fits hr)
  · exact h.after_endWithError e

/-- A host access to an IDLE block keeps the invariant. -/
theorem State.Inv.after_hostIdle {s t : State} (h : s.Inv) (hp : s.phase = .idle) {a : HostAccess}
    (ha : hostIdle a s = .next t) : t.Inv := by
  have htick : s.tick.Inv := h.ofOwnFields s.events s.rdata (s.draws + 1)
  have hwf := h.buffers.ibuf_wf
  have hwithin := h.buffers.ibuf_within
  rcases hostIdle_next a s t ha with
    ⟨_, -, -, hu, rfl⟩ | ⟨v, -, rfl⟩ | ⟨v, -, rfl⟩ | ⟨off, v, -, hoff, rfl⟩ | rfl | ⟨d, rfl⟩
  · exact htick.after_begin hu
  · exact htick.setInputs hp (CmdReg.ofWord v) s.ilen hwf hwithin
  · exact htick.setInputs hp s.cmd v hwf hwithin
  · exact htick.setInputs hp s.cmd s.ilen (s.ibuf.write_wf off v hwf) (s.ibuf.write_within off v _ hwithin hoff)
  · exact htick
  · exact h.ofOwnFields s.events (some d) s.draws

/-- A host access to a BUSY block keeps the invariant. -/
theorem State.Inv.after_hostBusy {s : State} (h : s.Inv) (a : HostAccess) : (hostBusy a s).Inv := by
  rcases hostBusy_cases a s with hb | ⟨d, hb⟩ <;> rw [hb]
  · exact h.ofOwnFields s.events s.rdata (s.draws + 1)
  · exact h.ofOwnFields s.events (some d) (s.draws + 1)

/-- Settles O18: each kind of step keeps the invariant. -/
theorem stepKeepsInvariant : Obligations.StepKeepsInvariant := by
  unfold Obligations.StepKeepsInvariant
  intro s t h hs
  rcases step_next s t hs with
    ⟨rest, -, ⟨-, hx⟩ | ⟨-, rfl⟩⟩ | ⟨a, rest, -, ⟨hp, ha⟩ | ⟨-, rfl⟩⟩ | ⟨rest, -, rfl⟩
  · exact (h.ofOwnFields rest s.rdata (s.draws + 1)).after_exec hx
  · exact h.ofOwnFields rest s.rdata s.draws
  · exact (h.ofOwnFields rest s.rdata s.draws).after_hostIdle hp ha
  · exact (h.ofOwnFields rest s.rdata s.draws).after_hostBusy a
  · exact (h.ofOwnFields rest s.rdata s.draws).after_resetStep

/-- Settles O17: the reset registers are 0 and the buffers empty. -/
theorem resetStateGood : Obligations.ResetStateGood where
  caps := by decide
  buffers := ⟨.nil, by simp [State.reset], .nil, by simp [State.reset]⟩
  status := ⟨by simp [State.reset], by simp [State.reset], by simp [State.reset]⟩
  result := State.resultGood_of_zero rfl rfl rfl
  input_written hb := absurd hb (by decide)

end Sys2Proof.Machine
end

section
/-! SUPPORT. The statements about the state, its steps and its host accesses (spec/10_state.md). -/

namespace Sys2Proof.Machine

/-- Settles O4, by the equation of each turn of the sequencer; `withFetchWord` stores only the fields of the word,
and the decoder reads nothing else. -/
theorem stepRunsDecodedCommand : Obligations.StepRunsDecodedCommand := by
  unfold Obligations.StepRunsDecodedCommand
  refine ⟨fun s hp he => ?_, fun s rest hp he => step_sequencer_busy hp (.inl he), fun s nbits w hw _ => ?_,
    fun s hp he => ?_, fun s rest hp he => step_sequencer_idle hp (.inl he)⟩
  · rw [step_sequencer_busy hp (.inr ⟨he, rfl⟩), ← he]; rfl
  · rw [step_sequencer_busy (rest := s.events) rfl (.inl rfl), State.withFetchWord, State.command,
      Nat.mod_eq_of_lt hw]
    simp only [CmdReg.toWord_ofWord, ← commandWord_fields, decode_commandWord_fields]; rfl
  · rw [step_sequencer_idle hp (.inr ⟨he, rfl⟩), State.withEvents_self he]

/-- Settles O5: the step is COMPLETE of the operation CMD's fields name, and each clause is one way it ends. -/
theorem completeAppliesOperationOfCmd : Obligations.CompleteAppliesOperationOfCmd := by
  unfold Obligations.CompleteAppliesOperationOfCmd
  intro s rest r hp he hr
  have hstep := step_complete hp he
  rw [State.operation, ← hr] at hstep
  refine ⟨?_, ?_, ?_⟩
  · rintro out lcs sz count rfl; exact hstep
  · rintro e rfl; exact hstep
  · rintro a rfl; exact hstep

/-- Settles O6: the START step, and the three kinds of operation that read no unwritten byte. -/
theorem startBeginsOperation : Obligations.StartBeginsOperation := by
  unfold Obligations.StartBeginsOperation
  refine ⟨fun s v rest hp he hv hu => ?_, ?_⟩
  · rw [step_host_idle hp he, hostIdle_start hv]
    exact startStep_next hu
  · rintro s (hw | ⟨hop, hn⟩ | hlong)
    · exact State.unwrittenInput_of_written hw
    · exact State.unwrittenInput_of_unsupported hop hn
    · exact State.unwrittenInput_of_tooLong hlong

/-- Settles O8, register by register. -/
theorem idleRegisterWrites : Obligations.IdleRegisterWrites := by
  unfold Obligations.IdleRegisterWrites
  intro s v rest i hp
  refine ⟨fun he => ?_, fun a b he => step_host_idle hp he⟩
  have hstep := step_host_idle hp he
  refine ⟨?_, ?_, ?_, ?_⟩
  · rintro rfl hv
    rw [hstep, hostIdle_ctrl_clear hv]; rfl
  · rintro rfl
    refine ⟨CmdReg.ofWord v, rfl, rfl, fun j hj => ?_, hstep⟩
    simp [CmdReg.ofWord, wordN, hj]
  · rintro rfl
    exact hstep
  · intro hi
    rw [hstep, hostIdle_writeReg_ignored hi]; rfl

/-- Settles O9: CMD keeps the fields of the word, and its read is the word masked. -/
theorem cmdReadsBackMasked : Obligations.CmdReadsBackMasked := by
  unfold Obligations.CmdReadsBackMasked
  intro s v rest hp he
  refine ⟨_, _, step_host_idle hp he, step_readReg_idle hp rfl, ?_, rfl⟩
  exact congrArg (fun w => some (ReadData.word w)) (CmdReg.toWord_ofWord v)

/-- Settles O11, by the equation of a host access to a BUSY block and the value of STATUS. -/
theorem busyReads : Obligations.BusyReads := by
  unfold Obligations.BusyReads
  intro s rest hp
  have hbusy : s.busy = true := by simp [State.busy, hp]
  refine ⟨fun i he => ?_, ?_, ?_, fun hg => ?_⟩
  · rw [step_host_busy hp he, ← State.busyRegWord_eq]; rfl
  · rintro a (he | he) <;> exact step_host_busy hp he
  · rw [State.toNat_statusWord, hbusy, Bool.toNat_true]
  · obtain ⟨hdone, herr⟩ := hg.busy_clear hbusy
    apply BitVec.eq_of_toNat_eq
    rw [State.toNat_statusWord, hbusy, hdone, herr]; rfl

/-- Settles O13, by the read after a write of IBUF that may have been ignored. -/
theorem ibufWriteReadsBack : Obligations.IbufWriteReadsBack := by
  unfold Obligations.IbufWriteReadsBack
  intro s a b v rest hp he
  refine ⟨_, _, step_writeIbuf_idle hp he, step_readIbuf_idle hp rfl, rfl, fun ha => if_neg (by omega),
    fun c hc => ?_, fun ha hb => ?_, fun w hb hcap hw => ?_⟩
  · exact (Memory.read_ite_write ..).trans (if_neg fun h => hc h.2)
  · refine congrArg (fun w => some (ReadData.byte w)) (State.hostByte_of_read (by exact hb ▸ ha) ?_)
    exact (Memory.read_ite_write ..).trans (if_pos ⟨ha, hb⟩)
  · refine congrArg (fun w => some (ReadData.byte w)) (State.hostByte_of_read hcap ?_)
    exact (Memory.read_ite_write ..).trans ((if_neg fun h => hb h.2).trans hw)

/-- Settles O14, buffer by buffer. -/
theorem idleBufferReads : Obligations.IdleBufferReads := by
  unfold Obligations.IdleBufferReads
  intro s a rest hp
  constructor
  · intro he
    rw [step_readIbuf_idle hp he, State.hostByte_eq]; rfl
  · intro he
    rw [step_readObuf_idle hp he, State.hostByte_eq]; rfl

/-- Settles O15: the value of each register word, field by field. -/
theorem registerWordLayout : Obligations.RegisterWordLayout := by
  unfold Obligations.RegisterWordLayout
  intro s i rest hp he
  have hbusy : s.busy = false := by simp [State.busy, hp]
  refine ⟨s.regWord i, step_readReg_idle hp he, ?_, ?_, ?_, ?_, ?_, ?_, ?_, fun hi => s.regWord_above hi⟩
  · rintro rfl; rfl
  · rintro rfl; exact toNat_commandWord ..
  · rintro rfl; rfl
  · rintro rfl
    refine ⟨?_, s.getLsbD_statusWord_done.symm⟩
    rw [State.regWord, State.toNat_statusWord, hbusy, Bool.toNat_false, Nat.zero_add]
  · rintro rfl; rfl
  · rintro rfl; exact s.frame.toNat_toWord
  · rintro rfl; rfl

/-- Settles O16: the reset state and the state a Reset step answers agree on the table's fields. -/
theorem resetLeavesTableValues : Obligations.ResetLeavesTableValues := by
  unfold Obligations.ResetLeavesTableValues
  rintro t (rfl | ⟨s, rest, he, ht⟩)
  · exact ⟨rfl, rfl, rfl, rfl, rfl, rfl, rfl, rfl, rfl, rfl, Memory.read_nil, Memory.read_nil⟩
  · rw [step_reset he] at ht
    cases ht
    exact ⟨rfl, rfl, rfl, rfl, rfl, rfl, rfl, rfl, rfl, rfl, Memory.read_nil, Memory.read_nil⟩

/-- Settles O21, by the kinds of step: no host access and no idle turn writes a result. -/
theorem resultsWrittenOnlyByComplete : Obligations.ResultsWrittenOnlyByComplete := by
  unfold Obligations.ResultsWrittenOnlyByComplete
  intro s t h hne
  rcases step_next s t h with ⟨rest, he, ⟨hp, hx⟩ | ⟨-, rfl⟩⟩ | ⟨a, rest, -, ⟨-, hx⟩ | ⟨-, rfl⟩⟩ | ⟨rest, he, -⟩
  · exact .inl ⟨hp, exec_next_idle hx, he.symm.imp And.left fun he => ⟨rest, he⟩⟩
  · simp at hne
  · obtain ⟨ho, hf, hn, hb⟩ := hostIdle_keeps_results hx
    simp [ho, hf, hn, hb] at hne
  · obtain ⟨ho, hf, hn, hb⟩ := hostBusy_keeps_results a { s with events := rest }
    simp [ho, hf, hn, hb] at hne
  · exact .inr ⟨rest, he⟩

/-- Settles O22, by the kinds of step a BUSY block has. -/
theorem inputsStableWhileBusy : Obligations.InputsStableWhileBusy := by
  unfold Obligations.InputsStableWhileBusy
  intro s t hp h hne
  rcases step_next s t h with ⟨rest, -, ⟨-, hx⟩ | ⟨-, rfl⟩⟩ | ⟨a, rest, -, ⟨hi, -⟩ | ⟨-, rfl⟩⟩ | ⟨rest, he, -⟩
  · have hf := exec_operationFrame hx
    exact ⟨hf.cmd, hf.ilen, hf.ibuf, hf.caps⟩
  · exact ⟨rfl, rfl, rfl, rfl⟩
  · simp [hp] at hi
  · rcases hostBusy_cases a { s with events := rest } with hb | ⟨_, hb⟩ <;> rw [hb] <;> exact ⟨rfl, rfl, rfl, rfl⟩
  · exact absurd he (hne rest)

end Sys2Proof.Machine
end

section
/-! SUPPORT. The bits of a value, of a packed byte and of a packed stream (spec/42_chunk_framer_and_packing.md R141). -/

namespace Sys2Proof.Machine

theorem bitsValue_cons (b : Bool) (bs : BitStream) : bitsValue (b :: bs) = Nat.bit b (bitsValue bs) := by
  rw [bitsValue, Nat.bit_val, Nat.add_comm]

/-- Bit i of a sequence's value is its element i, 0 past the end (spec/00_scope.md R8). -/
theorem testBit_bitsValue (b : BitStream) (i : Nat) : (bitsValue b).testBit i = b.getD i false := by
  induction b generalizing i with
  | nil => simp [bitsValue]
  | cons x xs ih =>
    rw [bitsValue_cons]
    cases i with
    | zero => simp
    | succ i => rw [Nat.testBit_bit_succ, ih, List.getD_cons_succ]

/-- Bit i of a packed byte is element i of its bits. -/
theorem getLsbD_packByte (b : BitStream) {i : Nat} (hi : i < 8) : (packByte b).getLsbD i = b.getD i false := by
  rw [packByte, BitVec.getLsbD_ofNat, testBit_bitsValue, decide_eq_true hi, Bool.true_and]

/-- Byte q of a packed stream holds the eight bits from `q * 8` on. -/
theorem pack_getElem? (b : BitStream) {q : Nat} (hq : q < ceilDiv b.length 8) :
    (pack b)[q]? = some (packByte ((b.drop (q * 8)).take 8)) := by
  rw [pack, List.getElem?_map, groups_getElem? 8 _ b q hq, Option.map_some]

/-- Bit i of a stream is bit `i mod 8` of byte `i div 8` of its packing. -/
theorem pack_bit {b : BitStream} {i : Nat} {x : Bool} (h : b[i]? = some x) :
    ∃ v, (pack b)[i / 8]? = some v ∧ v.getLsbD (i % 8) = x := by
  have hlen : i < b.length := (List.getElem?_eq_some_iff.1 h).1
  have hq : i / 8 < ceilDiv b.length 8 := by
    have := le_ceilDiv_mul b.length 8 (by decide)
    omega
  have hr : i % 8 < 8 := Nat.mod_lt i (by decide)
  refine ⟨_, pack_getElem? b hq, ?_⟩
  rw [getLsbD_packByte _ hr, List.getD_eq_getElem?_getD, List.getElem?_take_of_lt hr, List.getElem?_drop,
    Nat.div_add_mod' i 8, h, Option.getD_some]

end Sys2Proof.Machine
end

section
/-! SUPPORT. Where the bits of a codeword lie in the payload and in the encoded file (spec/20_memory.md R53;
spec/43_encoder.md R162). -/

namespace Sys2Proof.Machine

/-- Position j of codeword c is bit `c * n + j` of the payload. -/
theorem payloadBits_getElem? (sz : CwSize) {chunks : List BitStream} {c j : Nat} {chunk : BitStream}
    (hc : chunks[c]? = some chunk) (hj : j < sz.n) :
    (payloadBits sz chunks)[c * sz.n + j]? = (cwenc sz chunk)[j]? := by
  induction chunks generalizing c with
  | nil => simp at hc
  | cons d ds ih =>
    rw [payloadBits, List.flatMap_cons]
    cases c with
    | zero =>
      obtain rfl : d = chunk := by simpa using hc
      rw [Nat.zero_mul, Nat.zero_add, List.getElem?_append_left (by simpa using hj)]
    | succ c =>
      rw [show (c + 1) * sz.n + j = (cwenc sz d).length + (c * sz.n + j) by rw [cwenc_length, Nat.succ_mul]; omega,
        List.getElem?_append_right (Nat.le_add_right ..), Nat.add_sub_cancel_left]
      exact ih hc

/-- The payload's bytes follow the header's nine (spec/20_memory.md R56). -/
theorem encodeFile_payload_getElem? (sz : CwSize) (x : List Byte) (q : Nat) :
    (encodeFile sz x).file[9 + q]? = (pack (payloadBits sz (frame sz.k (unpack x)).1))[q]? := by
  have hlen : (fileHeader (frame sz.k (unpack x)).2 sz).length = 9 := rfl
  rw [encodeFile, List.getElem?_append_right (by omega), hlen, Nat.add_sub_cancel_left]

/-- Settles O49: a position of a codeword is a bit of the payload, and packing keeps each bit in its byte. -/
theorem codewordPlacement : Obligations.CodewordPlacement := by
  unfold Obligations.CodewordPlacement
  intro sz x c j chunk hc hj
  obtain ⟨v, hv⟩ : ∃ v, (cwenc sz chunk)[j]? = some v := ⟨_, List.getElem?_eq_getElem (by simpa using hj)⟩
  obtain ⟨b, hb, hbit⟩ := pack_bit ((payloadBits_getElem? sz hc hj).trans hv)
  exact ⟨b, (encodeFile_payload_getElem? ..).trans hb, hbit ▸ hv⟩

end Sys2Proof.Machine
end

section
/-! SUPPORT. What a host read answers and what it leaves unchanged (spec/20_memory.md R55). -/

namespace Sys2Proof.Machine

/-- The accesses that are reads (spec/20_memory.md R55). -/
def HostAccess.IsRead (a : HostAccess) : Prop :=
  (∃ i, a = .readReg i) ∨ (∃ off, a = .readIbuf off) ∨ (∃ off, a = .readObuf off)

/-- A read of an IDLE block changes the read data only, and the value depends neither on the turns to come nor on the
read data before. -/
theorem hostIdle_read {a : HostAccess} (ha : a.IsRead) (s : State) :
    ∃ d, ∀ (events : List Event) (r : Option ReadData),
      hostIdle a { s with events := events, rdata := r } = .next { s with events := events, rdata := some d } := by
  rcases ha with ⟨i, rfl⟩ | ⟨off, rfl⟩ | ⟨off, rfl⟩
  · exact ⟨.word (s.regWord i), fun _ _ => rfl⟩
  · exact ⟨.byte (s.hostByte .ibuf off), fun _ _ => rfl⟩
  · exact ⟨.byte (s.hostByte .obuf off), fun _ _ => rfl⟩

/-- A read of a BUSY block changes the read data and the draw counter only (spec/10_state.md R38). -/
theorem hostBusy_read {a : HostAccess} (ha : a.IsRead) (s : State) :
    ∃ d, hostBusy a s = { s with rdata := some d, draws := s.draws + 1 } := by
  rcases ha with ⟨i, rfl⟩ | ⟨off, rfl⟩ | ⟨off, rfl⟩ <;> exact ⟨_, rfl⟩

/-- Settles O12, by the two phases: two reads of an IDLE block see the same state but for turns and read data. -/
theorem readsChangeNoState : Obligations.ReadsChangeNoState := by
  unfold Obligations.ReadsChangeNoState
  intro s a rest ha
  obtain ⟨d, hd⟩ := hostIdle_read ha s
  refine ⟨fun he => ?_, fun hp he => ?_⟩
  · obtain hp | hp : s.phase = .idle ∨ s.phase = .busy := by cases s.phase <;> simp
    · exact ⟨d, s.draws, (step_host_idle hp he).trans (hd rest s.rdata)⟩
    · obtain ⟨e, hb⟩ := hostBusy_read ha { s with events := rest }
      exact ⟨e, s.draws + 1, (step_host_busy hp he).trans (congrArg _ hb)⟩
  · have first := (step_host_idle hp he).trans (hd (.host a :: rest) s.rdata)
    have second := (step_host_idle (s := { s with events := .host a :: rest, rdata := some d }) hp rfl).trans
      (hd rest (some d))
    exact ⟨_, _, first, second, rfl, Option.some_ne_none d⟩

end Sys2Proof.Machine
end

section
/-! SUPPORT. The statements about the command word: encode and decode invert each other, and the rows of the table
select (spec/30_encoding.md R70, R71, R84). -/

namespace Sys2Proof

variable (w : Word)

/-- The unsupported values of N (spec/10_state.md R25). -/
theorem supportedN_eq_false {n : Byte} : supportedN n = false ↔ n ≠ 4 ∧ n ≠ 8 ∧ n ≠ 16 := by
  simp [supportedN, and_assoc]

/-- A command is read back from its own word (spec/30_encoding.md R71). -/
theorem decode_encode {i : Instr} (h : i.wf = true) : decode (encode i) = i := by
  cases i with
  | encInv n fix =>
    obtain ⟨h4, h8, h16⟩ := supportedN_eq_false.1 (show supportedN n = false by simpa [Instr.wf] using h)
    simp only [encode, decode_eq, wordOp_commandWord, wordFix_commandWord, wordN_commandWord, if_neg h4, if_neg h8,
      if_neg h16, Bool.false_eq_true, if_false]
  | encL1 | encL2 | encL3 | decRaw | decFix => simp [encode, decode_eq]

/-- The command of a word has the fields of the word (spec/30_encoding.md R70). -/
theorem encode_decode : encode (decode w) = commandWord (wordOp w) (wordFix w) (wordN w) := by
  rw [decode_eq]
  split_ifs <;> simp [encode, *]

/-- No word decodes to an ENC.INV with a supported N (spec/30_encoding.md R71). -/
theorem decode_wf : (decode w).wf = true := by
  rw [decode_eq]
  split_ifs with _ _ h4 h8 h16
  · rfl
  · rfl
  · rfl
  · rfl
  · rfl
  · exact congrArg (!·) (supportedN_eq_false.2 ⟨h4, h8, h16⟩)

/-- Settles O1: the decoder and the encoder agree on the three fields, and nothing else is in a command. -/
theorem decodeEncodeRoundTrip : Obligations.DecodeEncodeRoundTrip :=
  ⟨fun _ => decode_encode, fun w => (encode_decode w).trans (commandWord_fields w), decode_wf⟩

/-- The mask and match of an encoder level, in terms of the fields. -/
theorem encMask_iff (n : Byte) :
    w &&& 0x0000FF01 = commandWord false false n ↔ wordOp w = false ∧ wordN w = n := by
  rw [← encRow_selects_iff ⟨"", 0x0000FF01, commandWord false false n⟩ w n rfl rfl, OpcodeRow.selects, beq_iff_eq]

/-- The mask and match of a decoder row, in terms of the fields. -/
theorem decMask_iff (fix : Bool) :
    w &&& 0x00000003 = commandWord true fix 0 ↔ wordOp w = true ∧ wordFix w = fix := by
  rw [← decRow_selects_iff ⟨"", 0x00000003, commandWord true fix 0⟩ w fix rfl rfl, OpcodeRow.selects, beq_iff_eq]

/-- The mask and match of the fallback row look at OP alone. -/
theorem invMask_iff : w &&& 0x00000001 = 0 ↔ wordOp w = false := by
  rw [show (0x00000001 : Word) = commandWord true false 0 by rfl, and_commandWord,
    show (0 : Word) = commandWord false false 0 by rfl, commandWord_inj]
  simp

/-- A word that neither row of the decoder selects has OP = 0, so the fallback row selects it. -/
theorem rowEncInv_selects (hraw : ¬ rowDecRaw.selects w = true) (hfix : ¬ rowDecFix.selects w = true) :
    rowEncInv.selects w = true := by
  rw [decRow_selects_iff rowDecRaw w false rfl rfl] at hraw
  rw [decRow_selects_iff rowDecFix w true rfl rfl] at hfix
  refine beq_iff_eq.2 ((invMask_iff w).2 ?_)
  cases hf : wordFix w <;> simp_all

/-- The first row of the table that selects a word is the row of the word's command (spec/30_encoding.md R71). -/
theorem find_row_selects : opcodeRows.find? (·.selects w) = some (decode w).row := by
  unfold decode
  split_ifs with _ _ _ hraw hfix
  case neg => simp [opcodeRows, Instr.row, rowEncInv_selects w hraw hfix, *]
  all_goals simp [opcodeRows, Instr.row, *]

/-- Settles O3: each row's mask and match compare fields, and the fields decide the command. -/
theorem everyWordSelectsOneCommand : Obligations.EveryWordSelectsOneCommand := by
  unfold Obligations.EveryWordSelectsOneCommand
  refine ⟨fun w => ⟨(encMask_iff w 4).trans ?_, (encMask_iff w 8).trans ?_, (encMask_iff w 16).trans ?_,
    (decMask_iff w false).trans ?_, (decMask_iff w true).trans ?_,
    (and_congr (invMask_iff w) (and_congr (encMask_iff w 4).not
      (and_congr (encMask_iff w 8).not (encMask_iff w 16).not))).trans ?_, find_row_selects w⟩, by decide⟩
  all_goals
    rw [decode_eq]
    split_ifs <;> simp_all

/-- Settles O2: the decoder runs on each of the eight words. -/
theorem writtenWordsDecode : Obligations.WrittenWordsDecode := by
  unfold Obligations.WrittenWordsDecode
  decide

end Sys2Proof
end

section
/-! SUPPORT. The bits of a codeword: what the position map and the parity synthesizer set, and which data positions a
parity bit covers (spec/30_encoding.md R73 to R78; spec/41_syndrome_parity_corrector.md R120 to R127). -/

namespace Sys2Proof.Machine

variable (sz : CwSize)

/-- Set the bit at each listed position, in order. -/
def setAll (cw : BitStream) (ps : List Nat) (vs : BitStream) : BitStream :=
  (ps.zip vs).foldl (fun cw p => cw.set p.1 p.2) cw

/-- The position map sets the data positions of the zero word (spec/40_bit_position_map.md R104). -/
theorem ppmScatter_eq_setAll (d : BitStream) : ppmScatter sz d = setAll (zeros sz.n) (dataPositions sz) d := rfl

theorem setAll_cons (cw : BitStream) (p : Nat) (ps : List Nat) (v : Bool) (vs : BitStream) :
    setAll cw (p :: ps) (v :: vs) = setAll (cw.set p v) ps vs := rfl

/-- A position that is not listed keeps its bit. -/
theorem setAll_getElem?_of_notMem {ps : List Nat} {i : Nat} (hi : i ∉ ps) (cw vs : BitStream) :
    (setAll cw ps vs)[i]? = cw[i]? := by
  induction ps generalizing cw vs with
  | nil => rfl
  | cons p ps ih =>
    obtain ⟨hp, hps⟩ := not_or.1 (List.mem_cons.not.1 hi)
    cases vs with
    | nil => rfl
    | cons v vs => rw [setAll_cons, ih hps, List.getElem?_set_ne (Ne.symm hp)]

/-- A listed position of the word takes its own bit. -/
theorem setAll_getElem?_of_mem {ps : List Nat} (hps : ps.Nodup) {j i : Nat} (hi : ps[j]? = some i)
    {cw : BitStream} (hcw : i < cw.length) {vs : BitStream} (hvs : j < vs.length) :
    (setAll cw ps vs)[i]? = vs[j]? := by
  induction ps generalizing cw vs j with
  | nil => simp at hi
  | cons p ps ih =>
    obtain ⟨hp, hnd⟩ := List.nodup_cons.1 hps
    cases vs with
    | nil => simp at hvs
    | cons v vs =>
      rw [setAll_cons]
      cases j with
      | zero =>
        obtain rfl : p = i := by simpa using hi
        rw [setAll_getElem?_of_notMem hp, List.getElem?_set_self hcw]; rfl
      | succ j =>
        exact ih hnd (by simpa using hi) (by simpa using hcw) (by simpa using hvs)

theorem dataPositions_nodup : (dataPositions sz).Nodup := by cases sz <;> decide
theorem parityPositions_nodup : (parityPositions sz).Nodup := by cases sz <;> decide

/-- n is the power of two its parity bits count to (spec/41_syndrome_parity_corrector.md R121). -/
theorem CwSize.n_eq_two_pow : sz.n = 2 ^ sz.parityBits := by cases sz <;> rfl

theorem two_pow_lt_n {b : Nat} (hb : b < sz.parityBits) : 2 ^ b < sz.n :=
  sz.n_eq_two_pow ▸ Nat.pow_lt_pow_right (by decide) hb

theorem dataPositions_lt {p : Nat} (hp : p ∈ dataPositions sz) : p < sz.n := by
  simp only [dataPositions, List.mem_filter, List.mem_range] at hp; exact hp.1

/-- Every position is 0, a parity position or a data position (spec/30_encoding.md R73). -/
theorem position_cases {i : Nat} (hi : i < sz.n) :
    i = 0 ∨ (∃ b < sz.parityBits, i = 2 ^ b) ∨ i ∈ dataPositions sz := by
  revert i; cases sz <;> decide

/-- A parity position is no data position. -/
theorem two_pow_notMem_dataPositions {b : Nat} (hb : b < sz.parityBits) : 2 ^ b ∉ dataPositions sz := by
  revert b; cases sz <;> decide

/-- A chunk has its bits at the data positions of its scatter (spec/40_bit_position_map.md R104). -/
theorem ppmScatter_getElem?_data {d : BitStream} (hd : d.length = sz.k) {j p : Nat}
    (hp : (dataPositions sz)[j]? = some p) : (ppmScatter sz d)[p]? = d[j]? := by
  obtain ⟨hj, -⟩ := List.getElem?_eq_some_iff.1 hp
  exact setAll_getElem?_of_mem (dataPositions_nodup sz) hp
    (by simpa using dataPositions_lt sz (List.mem_of_getElem? hp)) (by simpa [hd] using hj)

/-- The scatter of a chunk is 0 at every position that is no data position (spec/40_bit_position_map.md R104). -/
theorem ppmScatter_getElem?_of_notMem (d : BitStream) {i : Nat} (hi : i < sz.n) (hp : i ∉ dataPositions sz) :
    (ppmScatter sz d)[i]? = some false := by
  rw [ppmScatter_eq_setAll, setAll_getElem?_of_notMem hp, zeros_getElem?, if_pos hi]

/-- The syndrome of the bits at a list of positions, from a start value on. -/
theorem testBit_foldl_xor (cw : BitStream) (b : Nat) (l : List Nat) (s : Nat) :
    (l.foldl (fun s i => if cw.getD i false then s ^^^ i else s) s).testBit b =
      (l.filter (·.testBit b)).foldl (fun p i => p ^^ cw.getD i false) (s.testBit b) := by
  induction l generalizing s with
  | nil => rfl
  | cons i l ih =>
    rw [List.foldl_cons, ih, List.filter_cons]
    cases hb : i.testBit b <;> cases hc : cw.getD i false <;>
      simp only [hb, hc, if_true, if_false, Bool.false_eq_true, List.foldl_cons, Nat.testBit_xor, Bool.xor_false]

/-- Bit b of the syndrome is the parity of the bits whose index has bit b set
(spec/41_syndrome_parity_corrector.md R121). -/
theorem testBit_syndrome (cw : BitStream) (b : Nat) :
    (syndrome sz cw).testBit b =
      ((List.range sz.n).filter (·.testBit b)).foldl (fun p i => p ^^ cw.getD i false) false := by
  rw [syndrome, testBit_foldl_xor, Nat.zero_testBit]

/-- The xor of a list of bits, its first bit the start value. -/
def xorList : BitStream → Bool
  | [] => false
  | b :: bs => bs.foldl Bool.xor b

theorem xorList_cons (b : Bool) (bs : BitStream) : xorList (b :: bs) = (b ^^ xorList bs) := by
  cases bs with
  | nil => exact (Bool.xor_false b).symm
  | cons c cs => exact List.foldl_assoc

theorem foldl_xor_eq_xorList (f : Nat → Bool) (l : List Nat) (s : Bool) :
    l.foldl (fun p i => p ^^ f i) s = (s ^^ xorList (l.map f)) := by
  induction l generalizing s with
  | nil => exact (Bool.xor_false s).symm
  | cons i l ih => rw [List.foldl_cons, ih, List.map_cons, xorList_cons, Bool.xor_assoc]

/-- The xor of the data bits that the parity bit at position `2^b` covers (spec/30_encoding.md R77). -/
def coveredParity (cw : BitStream) (b : Nat) : Bool :=
  xorList (((dataPositions sz).filter (·.testBit b)).map (cw.getD · false))

/-- The indices with bit b set are position 2^b and the data positions it covers. -/
theorem range_filter_testBit {b : Nat} (hb : b < sz.parityBits) :
    (List.range sz.n).filter (·.testBit b) = 2 ^ b :: (dataPositions sz).filter (·.testBit b) := by
  revert b; cases sz <;> decide

/-- Bit b of the syndrome compares the parity bit at 2^b with the data bits it covers. -/
theorem testBit_syndrome_parity (cw : BitStream) {b : Nat} (hb : b < sz.parityBits) :
    (syndrome sz cw).testBit b = (cw.getD (2 ^ b) false ^^ coveredParity sz cw b) := by
  rw [testBit_syndrome, range_filter_testBit sz hb, List.foldl_cons, foldl_xor_eq_xorList, Bool.false_xor,
    coveredParity]

/-- The syndrome has no bit above the parity bits (spec/41_syndrome_parity_corrector.md R121). -/
theorem testBit_syndrome_above (cw : BitStream) {b : Nat} (hb : sz.parityBits ≤ b) :
    (syndrome sz cw).testBit b = false := by
  have hnone : (List.range sz.n).filter (·.testBit b) = [] := by
    refine List.filter_eq_nil_iff.2 fun i hi => ?_
    have hlt : i < 2 ^ b :=
      (List.mem_range.1 hi).trans_le (sz.n_eq_two_pow ▸ Nat.pow_le_pow_right (by decide) hb)
    simp [Nat.testBit_lt_two_pow hlt]
  rw [testBit_syndrome, hnone, List.foldl_nil]

/-- The syndrome is 0 exactly when each parity bit is the xor of the data bits it covers. -/
theorem syndrome_eq_zero_iff (cw : BitStream) :
    syndrome sz cw = 0 ↔ ∀ b < sz.parityBits, cw.getD (2 ^ b) false = coveredParity sz cw b := by
  constructor
  · intro h b hb
    have hbit := testBit_syndrome_parity sz cw hb
    rw [h, Nat.zero_testBit] at hbit
    exact bne_eq_false_iff_eq.1 hbit.symm
  · intro h
    refine Nat.eq_of_testBit_eq fun b => ?_
    rw [Nat.zero_testBit]
    rcases Nat.lt_or_ge b sz.parityBits with hb | hb
    · rw [testBit_syndrome_parity sz cw hb, h b hb, Bool.xor_self]
    · exact testBit_syndrome_above sz cw hb

/-- What a parity bit covers is a matter of the data positions alone. -/
theorem coveredParity_congr {cw cw' : BitStream} (h : ∀ p ∈ dataPositions sz, cw[p]? = cw'[p]?) (b : Nat) :
    coveredParity sz cw b = coveredParity sz cw' b := by
  refine congrArg xorList (List.map_congr_left fun i hi => ?_)
  rw [List.getD_eq_getElem?_getD, List.getD_eq_getElem?_getD, h i (List.mem_of_mem_filter hi)]

/-- Setting each bit b of a value at a clear position 2^b writes it there. -/
theorem foldl_set_eq_setAll (bit : Nat → Bool) {l : List Nat} (hl : l.Nodup) (cw : BitStream)
    (h : ∀ b ∈ l, cw[2 ^ b]? = some false) :
    l.foldl (fun cw b => if bit b then cw.set (2 ^ b) true else cw) cw = setAll cw (l.map (2 ^ ·)) (l.map bit) := by
  induction l generalizing cw with
  | nil => rfl
  | cons b l ih =>
    obtain ⟨hb, hnd⟩ := List.nodup_cons.1 hl
    have hset : (if bit b then cw.set (2 ^ b) true else cw) = cw.set (2 ^ b) (bit b) := by
      cases hbit : bit b
      · obtain ⟨_, hclear⟩ := List.getElem?_eq_some_iff.1 (h b List.mem_cons_self)
        rw [if_neg Bool.false_ne_true, ← hclear, List.set_getElem_self]
      · rfl
    rw [List.foldl_cons, hset, List.map_cons, List.map_cons, setAll_cons]
    refine ih hnd _ fun c hc => ?_
    have hne : 2 ^ b ≠ 2 ^ c := fun he => hb (Nat.pow_right_injective le_rfl he ▸ hc)
    rw [List.getElem?_set_ne hne, h c (List.mem_cons_of_mem _ hc)]

/-- On a word whose parity positions are 0 the synthesizer writes each parity bit
(spec/41_syndrome_parity_corrector.md R124). -/
theorem pbs_eq_setAll {cw0 : BitStream} (h : ∀ b < sz.parityBits, cw0[2 ^ b]? = some false) :
    pbs sz cw0 =
      setAll cw0 (parityPositions sz) ((List.range sz.parityBits).map (syndrome sz cw0).testBit) :=
  foldl_set_eq_setAll _ List.nodup_range _ fun b hb => h b (List.mem_range.1 hb)

/-- The scatter of a chunk has its parity positions still 0 (spec/30_encoding.md R77). -/
theorem ppmScatter_getElem?_parity (d : BitStream) {b : Nat} (hb : b < sz.parityBits) :
    (ppmScatter sz d)[2 ^ b]? = some false :=
  ppmScatter_getElem?_of_notMem sz d (two_pow_lt_n sz hb) (two_pow_notMem_dataPositions sz hb)

/-- Before the parity bits are set, bit b of the syndrome is the xor of the data bits that position 2^b covers. -/
theorem testBit_syndrome_ppmScatter (d : BitStream) {b : Nat} (hb : b < sz.parityBits) :
    (syndrome sz (ppmScatter sz d)).testBit b = coveredParity sz (ppmScatter sz d) b := by
  rw [testBit_syndrome_parity sz _ hb, List.getD_eq_getElem?_getD, ppmScatter_getElem?_parity sz d hb,
    Option.getD_some, Bool.false_xor]

/-- A codeword is its chunk's scatter with the parity bits written (spec/30_encoding.md R77). -/
theorem cwenc_eq_setAll (d : BitStream) :
    cwenc sz d = setAll (ppmScatter sz d) (parityPositions sz)
      ((List.range sz.parityBits).map (coveredParity sz (ppmScatter sz d))) := by
  rw [cwenc, pbs_eq_setAll sz fun b hb => ppmScatter_getElem?_parity sz d hb]
  exact congrArg _ (List.map_congr_left fun b hb => testBit_syndrome_ppmScatter sz d (List.mem_range.1 hb))

/-- The parity positions of a codeword (spec/30_encoding.md R77). -/
theorem cwenc_getElem?_parity (d : BitStream) {b : Nat} (hb : b < sz.parityBits) :
    (cwenc sz d)[2 ^ b]? = some (coveredParity sz (ppmScatter sz d) b) := by
  have hlt := two_pow_lt_n sz hb
  rw [cwenc_eq_setAll, setAll_getElem?_of_mem (parityPositions_nodup sz) (j := b) (by simp [parityPositions, hb])
    (by simpa using hlt) (by simpa using hb)]
  simp [hb]

/-- Every other position of a codeword is that of the scatter (spec/41_syndrome_parity_corrector.md R124). -/
theorem cwenc_getElem?_of_notMem (d : BitStream) {i : Nat} (hi : i ∉ parityPositions sz) :
    (cwenc sz d)[i]? = (ppmScatter sz d)[i]? := by
  rw [cwenc_eq_setAll, setAll_getElem?_of_notMem hi]

theorem notMem_parityPositions {i : Nat} (hi : i = 0 ∨ i ∈ dataPositions sz) : i ∉ parityPositions sz := by
  rcases hi with rfl | hi
  · cases sz <;> decide
  · revert i; cases sz <;> decide

/-- Position 0 of a codeword is 0 (spec/30_encoding.md R78). -/
theorem cwenc_getElem?_zero (d : BitStream) : (cwenc sz d)[0]? = some false := by
  rw [cwenc_getElem?_of_notMem sz d (notMem_parityPositions sz (.inl rfl)),
    ppmScatter_getElem?_of_notMem sz d sz.n_pos (by cases sz <;> decide)]

/-- A codeword has its chunk at the data positions (spec/40_bit_position_map.md R104). -/
theorem cwenc_getElem?_data {d : BitStream} (hd : d.length = sz.k) {j p : Nat} (hp : (dataPositions sz)[j]? = some p) :
    (cwenc sz d)[p]? = d[j]? := by
  rw [cwenc_getElem?_of_notMem sz d (notMem_parityPositions sz (.inr (List.mem_of_getElem? hp))),
    ppmScatter_getElem?_data sz hd hp]

/-- Element j of the gathered chunk (spec/40_bit_position_map.md R105). -/
theorem ppmGather_getElem? (cw : BitStream) {j p : Nat} (hp : (dataPositions sz)[j]? = some p) :
    (ppmGather sz cw)[j]? = some (cw.getD p false) := by
  rw [ppmGather, List.getElem?_map, hp, Option.map_some]

/-- Decoding undoes encoding: the chunk is gathered from its codeword (spec/41_syndrome_parity_corrector.md R129). -/
theorem ppmGather_cwenc {d : BitStream} (hd : d.length = sz.k) : ppmGather sz (cwenc sz d) = d := by
  refine List.ext_getElem?' fun j hj => ?_
  replace hj : j < sz.k := by simpa [hd] using hj
  have hp := List.getElem?_eq_getElem (show j < (dataPositions sz).length by simpa using hj)
  rw [ppmGather_getElem? sz _ hp, List.getD_eq_getElem?_getD, cwenc_getElem?_data sz hd hp,
    List.getElem?_eq_getElem (hd ▸ hj), Option.getD_some]

/-- Every codeword has syndrome 0 (spec/30_encoding.md R78, spec/41_syndrome_parity_corrector.md R125). -/
theorem syndrome_cwenc (d : BitStream) : syndrome sz (cwenc sz d) = 0 := by
  refine (syndrome_eq_zero_iff sz _).2 fun b hb => ?_
  rw [List.getD_eq_getElem?_getD, cwenc_getElem?_parity sz d hb, Option.getD_some]
  exact coveredParity_congr sz
    (fun p hp => (cwenc_getElem?_of_notMem sz d (notMem_parityPositions sz (.inr hp))).symm) b

/-- Scatter after gather keeps the data positions (spec/40_bit_position_map.md R106). -/
theorem ppmScatter_ppmGather_getElem? {w : BitStream} (hw : w.length = sz.n) {p : Nat} (hp : p ∈ dataPositions sz) :
    (ppmScatter sz (ppmGather sz w))[p]? = w[p]? := by
  obtain ⟨j, hj⟩ := List.mem_iff_getElem?.1 hp
  rw [ppmScatter_getElem?_data sz (ppmGather_length ..) hj, ppmGather_getElem? sz w hj, List.getD_eq_getElem?_getD,
    List.getElem?_eq_getElem (hw ▸ dataPositions_lt sz hp), Option.getD_some]

/-- A word with position 0 clear and syndrome 0 is the codeword of the chunk at its data positions: its parity bits are
those the data bits ask for (spec/30_encoding.md R78). -/
theorem cwenc_ppmGather {w : BitStream} (hw : w.length = sz.n) (h0 : w[0]? = some false) (hs : syndrome sz w = 0) :
    cwenc sz (ppmGather sz w) = w := by
  have hdata := fun p (hp : p ∈ dataPositions sz) => ppmScatter_ppmGather_getElem? sz hw hp
  refine List.ext_getElem?' fun i hi => ?_
  replace hi : i < sz.n := by simpa [hw] using hi
  rcases position_cases sz hi with rfl | ⟨b, hb, rfl⟩ | hp
  · rw [cwenc_getElem?_zero, h0]
  · rw [cwenc_getElem?_parity sz _ hb, coveredParity_congr sz hdata, ← (syndrome_eq_zero_iff sz w).1 hs b hb,
      List.getD_eq_getElem?_getD, List.getElem?_eq_getElem (hw ▸ hi), Option.getD_some]
  · rw [cwenc_getElem?_of_notMem sz _ (notMem_parityPositions sz (.inr hp)), hdata i hp]

/-- Settles O42: the codewords are the words whose parity bits are those of their data bits. -/
theorem validCodewords : Obligations.ValidCodewords := by
  unfold Obligations.ValidCodewords
  intro sz
  refine ⟨fun w hw => ⟨fun ⟨h0, hs⟩ => ⟨_, ppmGather_length sz w, cwenc_ppmGather sz hw h0 hs⟩, ?_⟩,
    fun d e hd he h => ?_⟩
  · rintro ⟨d, -, rfl⟩
    exact ⟨cwenc_getElem?_zero sz d, syndrome_cwenc sz d⟩
  · rw [← ppmGather_cwenc sz hd, h, ppmGather_cwenc sz he]

theorem ppmScatter_n4 (d0 : Bool) : ppmScatter .n4 [d0] = [false, false, false, d0] := rfl

theorem ppmScatter_n8 (d0 d1 d2 d3 : Bool) :
    ppmScatter .n8 [d0, d1, d2, d3] = [false, false, false, d0, false, d1, d2, d3] := rfl

theorem ppmScatter_n16 (d0 d1 d2 d3 d4 d5 d6 d7 d8 d9 d10 : Bool) :
    ppmScatter .n16 [d0, d1, d2, d3, d4, d5, d6, d7, d8, d9, d10] =
      [false, false, false, d0, false, d1, d2, d3, false, d4, d5, d6, d7, d8, d9, d10] := rfl

/-- Settles O41: bit b of the syndrome is the xor of the data bits that position 2^b covers, and the equations of each
size list those. -/
theorem parityEquations : Obligations.ParityEquations := by
  unfold Obligations.ParityEquations
  refine ⟨fun sz d b _ hb => ?_, fun _ => ?_, fun _ _ _ _ => ?_, fun _ _ _ _ _ _ _ _ _ _ _ => ?_⟩
  · rw [cwenc_getElem?_parity sz d hb, testBit_syndrome_ppmScatter sz d hb]
  · rw [cwenc_eq_setAll, ppmScatter_n4]; rfl
  · rw [cwenc_eq_setAll, ppmScatter_n8]; rfl
  · rw [cwenc_eq_setAll, ppmScatter_n16]; rfl

end Sys2Proof.Machine
end

section
/-! SUPPORT. What the turns of a host-program statement do, taken in a row by a block (spec/30_encoding.md R93). -/

namespace Sys2Proof.Machine

variable {s t : State} {rest : List Event}

/-- A run goes on from the state its first step answers. -/
theorem run_succ {k : Nat} {o : Host.Outcome State Fault Refusal} (h : step s = .next t) (hr : core.run k t = o) :
    core.run (k + 1) s = o := by
  have hs : core.step s = .next t := h
  simp only [Host.Core.run, hs]
  exact hr

/-- A run of one step. -/
theorem run_one (h : step s = .next t) : core.run 1 s = .next t := run_succ h rfl

/-- A run goes on from the state its first part answers. -/
theorem run_add {j k : Nat} {o : Host.Outcome State Fault Refusal} (h : core.run j s = .next t)
    (hr : core.run k t = o) : core.run (j + k) s = o := by
  induction j generalizing s with
  | zero => cases h; rw [Nat.zero_add]; exact hr
  | succ j ih =>
    simp only [Host.Core.run] at h
    rw [Nat.succ_add]
    split at h
    · exact run_succ ‹_› (ih h)
    · cases h
    · cases h

/-- A write to ILEN by the host of an IDLE block. -/
theorem step_writeIlen_idle {v : Word} (hp : s.phase = .idle) (he : s.events = .host (.writeReg 2 v) :: rest) :
    step s = .next { s with ilen := v, events := rest, draws := s.draws + 1 } :=
  step_host_idle hp he

/-- Byte writes inside IBUF, taken by an IDLE block. -/
theorem run_writeIbufFrom (hp : s.phase = .idle) {a : Nat} {bytes : List Byte}
    (hcap : a + bytes.length ≤ s.caps.ibufBytes) (he : s.events = writeIbufFrom a bytes ++ rest) :
    core.run bytes.length s = .next { s with
      ibuf := s.ibuf.writeBytes a bytes, events := rest, draws := s.draws + bytes.length } := by
  induction bytes generalizing s a with
  | nil => exact congrArg Host.Outcome.next (State.withEvents_self he).symm
  | cons v bytes ih =>
    rw [List.length_cons] at hcap
    have hstep := step_writeIbuf_idle (rest := writeIbufFrom (a + 1) bytes ++ rest) hp he
    rw [if_pos (by omega)] at hstep
    rw [List.length_cons, Nat.add_comm bytes.length, ← Nat.add_assoc, Nat.add_comm 1]
    exact run_succ hstep (ih (s := { s with
      ibuf := s.ibuf.write a v, events := writeIbufFrom (a + 1) bytes ++ rest, draws := s.draws + 1 }) hp
      (by show a + 1 + bytes.length ≤ s.caps.ibufBytes; omega) rfl)

/-- Reads of OBUF, taken by an IDLE block, change the read data only. -/
theorem run_readObuf (hp : s.phase = .idle) {l : List Nat}
    (he : s.events = l.map (fun a => Event.host (.readObuf a)) ++ rest) :
    ∃ d, core.run l.length s = .next { s with events := rest, rdata := d } := by
  induction l generalizing s with
  | nil => exact ⟨s.rdata, congrArg Host.Outcome.next (State.withEvents_self he).symm⟩
  | cons a l ih =>
    have hstep := step_readObuf_idle (rest := l.map (fun a => Event.host (.readObuf a)) ++ rest) hp he
    obtain ⟨d, hd⟩ := ih (s := { s with
      events := l.map (fun a => Event.host (.readObuf a)) ++ rest, rdata := some (.byte (s.hostByte .obuf a)) }) hp rfl
    exact ⟨d, run_succ hstep hd⟩

/-- Byte writes to IBUF and then a length to ILEN, taken by an IDLE block. -/
theorem run_writeInput (hp : s.phase = .idle) {bytes : List Byte} {len : Word}
    (hcap : bytes.length ≤ s.caps.ibufBytes)
    (he : s.events = writeIbufFrom 0 bytes ++ .host (.writeReg 2 len) :: rest) :
    core.run (bytes.length + 1) s = .next { s with
      ibuf := s.ibuf.writeBytes 0 bytes, ilen := len, events := rest, draws := s.draws + (bytes.length + 1) } :=
  run_add (run_writeIbufFrom hp (by omega) he) (run_one (step_writeIlen_idle hp rfl))

/-- A range of bytes just written is read back. -/
theorem Memory.read_writeBytes_below (m : Memory) {x : List Byte} {a : Nat} (ha : a < x.length) :
    (m.writeBytes 0 x).read a = x[a]? := by
  rw [Memory.read_writeBytes, if_pos ⟨Nat.zero_le _, by omega⟩, Nat.sub_zero]

/-- Above a range just written every byte reads as before. -/
theorem Memory.read_writeBytes_above (m : Memory) {x : List Byte} {a : Nat} (ha : x.length ≤ a) :
    (m.writeBytes 0 x).read a = m.read a := by
  rw [Memory.read_writeBytes, if_neg (by omega)]

/-- The input is the bytes that `IBUF[0..ILEN)` reads as. -/
theorem State.hasInput_iff (s : State) (x : List Byte) :
    s.HasInput x ↔ x.length = s.ilen.toNat ∧ ∀ i < s.ilen.toNat, s.ibuf.read i = x[i]? := by
  simpa only [Nat.zero_add, State.HasInput] using Memory.readBytes_ok s.ibuf s.ilen.toNat 0 x

/-- Settles O57: the byte writes fill `IBUF[0..len)`, and the last turn stores the count. -/
theorem loadStatement : Obligations.LoadStatement := by
  unfold Obligations.LoadStatement
  intro s bytes rest hp hcap hlen
  have hcount : (BitVec.ofNat 32 bytes.length).toNat = bytes.length := Nat.mod_eq_of_lt hlen
  refine ⟨_, if_pos hlen, by simp, fun he => ?_⟩
  rw [List.append_assoc] at he
  refine ⟨_, run_writeInput hp hcap he, (State.hasInput_iff _ _).2 ⟨hcount.symm, fun i hi => ?_⟩, hcount, rfl,
    fun a ha => s.ibuf.read_writeBytes_above ha⟩
  exact s.ibuf.read_writeBytes_below (hi.trans_eq hcount)

/-- The bytes MOVE copies: what the host reads of `OBUF[0..OLEN)` (spec/30_encoding.md R93). -/
def moveBytes (s : State) : List Byte := (List.range s.olen.toNat).map (s.hostByte .obuf)

@[simp] theorem moveBytes_length (s : State) : (moveBytes s).length = s.olen.toNat := by simp [moveBytes]

/-- MOVE reads OLEN and the result, and then makes the accesses of a LOAD. -/
theorem moveTurns_eq (s : State) :
    moveTurns s = .host (.readReg 4) :: (List.range s.olen.toNat).map (fun a => .host (.readObuf a)) ++
      (writeIbufFrom 0 (moveBytes s) ++ [.host (.writeReg 2 s.olen)]) := List.append_assoc ..

/-- MOVE's reads change the read data only (spec/20_memory.md R55). -/
theorem run_moveReads (hp : s.phase = .idle)
    (he : s.events = .host (.readReg 4) :: (List.range s.olen.toNat).map (fun a => .host (.readObuf a)) ++ rest) :
    ∃ d, core.run (s.olen.toNat + 1) s = .next { s with events := rest, rdata := d } := by
  obtain ⟨d, hread⟩ := run_readObuf (l := List.range s.olen.toNat) (rest := rest) (s := { s with
    events := (List.range s.olen.toNat).map (fun a => Event.host (.readObuf a)) ++ rest
    rdata := some (.word (s.regWord 4)) }) hp rfl
  rw [List.length_range] at hread
  exact ⟨d, run_succ (step_readReg_idle hp he) hread⟩

/-- Where the result is written, the bytes MOVE copies are the result. -/
theorem moveBytes_getElem? {a : Nat} (ha : a < s.olen.toNat) (hcap : s.olen.toNat ≤ s.caps.obufBytes)
    (hw : s.obuf.read a ≠ none) : (moveBytes s)[a]? = s.obuf.read a := by
  obtain ⟨v, hv⟩ := Option.ne_none_iff_exists'.1 hw
  have hbyte : s.hostByte .obuf a = v := State.hostByte_of_read (b := .obuf) (ha.trans_le hcap) hv
  simp [moveBytes, ha, hbyte, hv]

/-- Settles O58: the reads leave the block as it is, and the writes copy what they return. -/
theorem moveStatement : Obligations.MoveStatement := by
  unfold Obligations.MoveStatement
  intro s rest hp hicap hocap hwritten
  refine ⟨moveTurns s, by simp [HostStmt.events, hp], moveTurns_length s, fun he => ?_⟩
  have hlen := moveBytes_length s
  rw [moveTurns_eq, List.append_assoc, List.append_assoc] at he
  obtain ⟨d, hreads⟩ := run_moveReads hp he
  have hwrites := run_writeInput (s := { s with
    events := writeIbufFrom 0 (moveBytes s) ++ .host (.writeReg 2 s.olen) :: rest, rdata := d })
    hp (hlen.trans_le hicap) rfl
  rw [hlen] at hwrites
  rw [show 2 * s.olen.toNat + 2 = (s.olen.toNat + 1) + (s.olen.toNat + 1) by omega]
  refine ⟨_, run_add hreads hwrites, rfl, fun a ha => ?_, fun a ha => ?_, rfl⟩
  · exact (s.ibuf.read_writeBytes_below (ha.trans_eq hlen.symm)).trans (moveBytes_getElem? ha hocap (hwritten a ha))
  · exact s.ibuf.read_writeBytes_above (hlen.trans_le ha)

/-- STATUS.BUSY is bit 0 of STATUS (spec/10_state.md R27). -/
theorem State.getLsbD_statusWord_busy (s : State) : s.statusWord.getLsbD 0 = s.busy := by
  simp [State.statusWord]

/-- A poll of STATUS, taken by a BUSY block, shows BUSY = 1 (spec/10_state.md R27, R38). -/
theorem step_poll_busy (hp : s.phase = .busy) (he : s.events = .host (.readReg 3) :: rest) :
    ∃ w : Word, w.getLsbD 0 = true ∧
      step s = .next { s with events := rest, rdata := some (.word w), draws := s.draws + 1 } :=
  ⟨s.statusWord, by rw [s.getLsbD_statusWord_busy, State.busy, hp]; rfl, step_host_busy hp he⟩

/-- Polls of STATUS, taken by a BUSY block, change the read data and the draw counter only (spec/10_state.md R38). -/
theorem run_polls (hp : s.phase = .busy) {m : Nat}
    (he : s.events = List.replicate m (.host (.readReg 3)) ++ rest) :
    ∃ d, core.run m s = .next { s with events := rest, rdata := d, draws := s.draws + m } := by
  induction m generalizing s with
  | zero => exact ⟨s.rdata, congrArg Host.Outcome.next (State.withEvents_self he).symm⟩
  | succ m ih =>
    obtain ⟨w, -, hstep⟩ := step_poll_busy (rest := List.replicate m (Event.host (.readReg 3)) ++ rest) hp he
    obtain ⟨d, hrun⟩ := ih (s := { s with
      events := List.replicate m (Event.host (.readReg 3)) ++ rest
      rdata := some (.word w), draws := s.draws + 1 }) hp rfl
    rw [Nat.add_comm m 1, ← Nat.add_assoc, Nat.add_comm 1 m]
    exact ⟨d, run_succ hstep hrun⟩

/-- COMPLETE of an operation that reads no unwritten byte ends IDLE and DONE (spec/10_state.md R41). -/
theorem step_complete_done (hp : s.phase = .busy) (hu : s.unwrittenInput = none) (he : s.events = .sequencer :: rest) :
    ∃ t, step s = .next t ∧ t.phase = .idle ∧ t.done = true ∧ t.events = rest := by
  obtain ⟨r, hr⟩ := s.unwrittenInput_eq_none.1 hu
  rw [step_complete hp (.inl he), hr]
  cases r with
  | ok out lcs sz count => exact ⟨_, rfl, rfl, rfl, rfl⟩
  | err e => exact ⟨_, rfl, rfl, rfl, rfl⟩

/-- A read of STATUS by the host of an IDLE block shows BUSY = 0 and DONE (spec/10_state.md R27, R37). -/
theorem step_readStatus_idle (hp : s.phase = .idle) (he : s.events = .host (.readReg 3) :: rest) :
    ∃ w : Word, step s = .next { s with events := rest, rdata := some (.word w) } ∧
      w.getLsbD 0 = false ∧ w.getLsbD 1 = s.done :=
  ⟨s.statusWord, step_readReg_idle hp he, by rw [s.getLsbD_statusWord_busy, State.busy, hp]; rfl,
    s.getLsbD_statusWord_done⟩

/-- The polls of a BUSY block: each shows BUSY = 1 and leaves the block BUSY (spec/30_encoding.md R93). -/
theorem run_poll_busy (hp : s.phase = .busy) {polls m : Nat} (hm : m < polls)
    (he : s.events = List.replicate polls (.host (.readReg 3)) ++ rest) :
    ∃ (u : State) (w : Word), core.run (m + 1) s = .next u ∧ u.phase = .busy ∧ u.rdata = some (.word w) ∧
      w.getLsbD 0 = true := by
  obtain ⟨k, rfl⟩ := Nat.exists_eq_add_of_lt hm
  rw [Nat.add_assoc, List.replicate_add, List.append_assoc] at he
  obtain ⟨d, hrun⟩ := run_polls hp he
  obtain ⟨w, hw, hstep⟩ := step_poll_busy (s := { s with
    events := List.replicate (k + 1) (.host (.readReg 3)) ++ rest, rdata := d, draws := s.draws + m }) hp rfl
  exact ⟨_, w, run_add hrun (run_one hstep), hp, rfl, hw⟩

/-- After its polls a WAIT of a BUSY block ends with COMPLETE and a read of STATUS (spec/30_encoding.md R93). -/
theorem run_wait_busy (hp : s.phase = .busy) (hu : s.unwrittenInput = none) {polls : Nat}
    (he : s.events = List.replicate polls (.host (.readReg 3)) ++ .sequencer :: .host (.readReg 3) :: rest) :
    ∃ (t : State) (w : Word), core.run (polls + 2) s = .next t ∧ t.phase = .idle ∧ t.done = true ∧
      t.events = rest ∧ t.rdata = some (.word w) ∧ w.getLsbD 0 = false ∧ w.getLsbD 1 = true := by
  obtain ⟨d, hpolls⟩ := run_polls hp he
  obtain ⟨t, hcomplete, hidle, hdone, hevents⟩ := step_complete_done (s := { s with
    events := .sequencer :: .host (.readReg 3) :: rest, rdata := d, draws := s.draws + polls }) hp hu rfl
  obtain ⟨w, hread, hbusy, hw⟩ := step_readStatus_idle hidle hevents
  exact ⟨_, w, run_add hpolls (run_succ hcomplete (run_one hread)), hidle, hdone, rfl, rfl, hbusy, hw.trans hdone⟩

/-- Settles O60, by the three cases of the state WAIT is reached in. -/
theorem waitStatement : Obligations.WaitStatement := by
  unfold Obligations.WaitStatement
  intro s polls rest
  refine ⟨fun hp hd => ⟨?_, fun he => ?_⟩, fun hp hu => ?_, fun hp hd => ⟨?_, fun he => ?_⟩⟩
  · simp [HostStmt.events, waitTurns, hp, hd]
  · obtain ⟨w, hstep, hbusy, hdone⟩ := step_readStatus_idle hp he
    exact ⟨w, hstep, hbusy, hdone.trans hd⟩
  · refine ⟨List.replicate polls (.host (.readReg 3)) ++ [.sequencer, .host (.readReg 3)],
      by simp [HostStmt.events, waitTurns, hp], by simp, fun he => ?_⟩
    rw [List.append_assoc] at he
    exact ⟨fun m hm => run_poll_busy hp hm he, run_wait_busy hp hu he⟩
  · simp [HostStmt.events, waitTurns, hp, hd]
  · obtain ⟨w, hstep, -, hdone⟩ := step_readStatus_idle hp he
    exact ⟨w, hstep, hdone.trans hd⟩

end Sys2Proof.Machine
end

section
/-! SUPPORT. FLIP: the bits of an unpacked byte sequence, and the statement (spec/20_memory.md R53;
spec/30_encoding.md R93; spec/45_corruptor_environment.md R204). -/

namespace Sys2Proof.Machine

variable {s t : State} {rest : List Event} {y : List Byte} {sz : CwSize} {count c j : Nat}

/-- Bit i of an unpacked sequence is bit `i mod 8` of byte `i div 8` (spec/42_chunk_framer_and_packing.md R140). -/
theorem unpack_getElem? (l : List Byte) (i : Nat) : (unpack l)[i]? = l[i / 8]?.map (·.getLsbD (i % 8)) := by
  induction l generalizing i with
  | nil => simp
  | cons b l ih =>
    rw [unpack_cons]
    rcases Nat.lt_or_ge i 8 with hi | hi
    · rw [List.getElem?_append_left (by simpa using hi), Nat.div_eq_of_lt hi, Nat.mod_eq_of_lt hi]
      simp [unpackByte, hi]
    · obtain ⟨k, rfl⟩ := Nat.exists_eq_add_of_le hi
      rw [List.getElem?_append_right (by simp), unpackByte_length, Nat.add_sub_cancel_left, ih, Nat.add_mod_left,
        Nat.add_div_left k (by decide), List.getElem?_cons_succ]

/-- Inverting one bit of a byte. -/
theorem getLsbD_xor_bit (b : Byte) (r : Nat) {k : Nat} (hk : k < 8) :
    (b ^^^ (1 <<< r)).getLsbD k = if r = k then !b.getLsbD k else b.getLsbD k := by
  have hbit : ((1 <<< r : Nat) : Byte).getLsbD k = decide (r = k) := by
    rw [BitVec.natCast_eq_ofNat, BitVec.getLsbD_ofNat, Nat.one_shiftLeft, Nat.testBit_two_pow, decide_eq_true hk,
      Bool.true_and]
  rw [BitVec.getLsbD_xor, hbit]
  by_cases h : r = k <;> simp [h]

/-- Inverting one bit of one byte flips one bit of the unpacked sequence (spec/20_memory.md R53). -/
theorem unpack_set_xor_bit {l : List Byte} {i : Nat} {b : Byte} (hb : l[i / 8]? = some b) :
    unpack (l.set (i / 8) (b ^^^ (1 <<< (i % 8)))) = flipBit (unpack l) i := by
  have hlt : i / 8 < l.length := (List.getElem?_eq_some_iff.1 hb).1
  refine List.ext_getElem? fun k => ?_
  rw [flipBit_getElem?, unpack_getElem?, unpack_getElem?]
  by_cases hq : i / 8 = k / 8
  · rw [← hq, List.getElem?_set_self hlt, hb, Option.map_some, Option.map_some, Option.map_some,
      getLsbD_xor_bit b _ (Nat.mod_lt k (by decide))]
    have hk : i % 8 = k % 8 ↔ i = k := by omega
    simp only [hk]
    split <;> rfl
  · rw [List.getElem?_set_ne hq, if_neg fun h : i = k => hq (h ▸ rfl)]

/-- Inverting the bit that holds position j of window c flips it in the payload (spec/20_memory.md R53). -/
theorem unpack_drop_set_position {n : Nat} {b : Byte} (hb : y[positionByte n c j]? = some b) :
    unpack ((y.set (positionByte n c j) (b ^^^ (1 <<< positionBit n c j))).drop 9) =
      flipBit (unpack (y.drop 9)) (c * n + j) := by
  have hle : ¬ positionByte n c j < 9 := Nat.not_lt.2 (Nat.le_add_right ..)
  have hq : positionByte n c j - 9 = (c * n + j) / 8 := Nat.add_sub_cancel_left ..
  rw [List.drop_set, if_neg hle, hq]
  exact unpack_set_xor_bit (by rw [List.getElem?_drop]; exact hb)

/-- The file's size is its byte 8 (spec/45_corruptor_environment.md R200). -/
theorem State.HasInput.fileSize (hy : s.HasInput y) (hcap : s.ilen.toNat ≤ s.caps.ibufBytes)
    (h8 : y[8]? = some sz.toByte) : s.fileSize = some sz := by
  obtain ⟨hlen, hread⟩ := (s.hasInput_iff y).1 hy
  have hlt : 8 < y.length := (List.getElem?_eq_some_iff.1 h8).1
  exact s.fileSize_eq sz sz.toByte hcap ((hread 8 (hlen ▸ hlt)).trans h8) ((CwSize.ofByte_eq_some _ _).2 rfl)

/-- Which positions of a file of `count` windows FLIP reaches (spec/45_corruptor_environment.md R200). -/
theorem flipFits_iff_of_windows {ilen : Nat} (h9 : 9 ≤ ilen) (hcount : 8 * (ilen - 9) = count * sz.n) :
    flipFits sz ilen c j = true ↔ j < sz.n ∧ c < count := by
  rw [flipFits_iff, hcount, Nat.mul_mod_left, Nat.mul_div_cancel _ sz.n_pos]
  simp [h9]

/-- The byte of position j of window c lies in a file of `count` windows (spec/20_memory.md R53). -/
theorem position_lt {len : Nat} (hcount : 8 * len = count * sz.n) (hj : j < sz.n) (hc : c < count) :
    (c * sz.n + j) / 8 < len := by
  have hle : (c + 1) * sz.n ≤ count * sz.n := Nat.mul_le_mul_right _ hc
  rw [Nat.succ_mul] at hle
  omega

/-- A write to one byte of IBUF replaces that byte of the input. -/
theorem State.HasInput.write (hy : s.HasInput y) {a : Nat} {v : Byte} (hilen : t.ilen = s.ilen)
    (hibuf : t.ibuf = s.ibuf.write a v) : t.HasInput (y.set a v) := by
  obtain ⟨hlen, hread⟩ := (s.hasInput_iff y).1 hy
  refine (t.hasInput_iff _).2 ⟨by rw [List.length_set, hlen, hilen], fun i hi => ?_⟩
  rw [hilen] at hi
  rw [hibuf, Memory.read_write, hread i hi, List.getElem?_set]
  by_cases h : a = i
  · rw [if_pos h.symm, if_pos h, if_pos (by omega)]
  · rw [if_neg (Ne.symm h), if_neg h]

/-- A byte of the input as the host reads it while IDLE. -/
theorem State.HasInput.hostByte (hy : s.HasInput y) (hcap : s.ilen.toNat ≤ s.caps.ibufBytes) {a : Nat}
    (ha : a < s.ilen.toNat) : y[a]? = some (s.hostByte .ibuf a) := by
  obtain ⟨hlen, hread⟩ := (s.hasInput_iff y).1 hy
  have hb := List.getElem?_eq_getElem (hlen ▸ ha)
  rw [hb, State.hostByte_of_read (b := .ibuf) (ha.trans_le hcap) ((hread a ha).trans hb)]

/-- The two turns of FLIP, taken by an IDLE block: one byte of IBUF gets one bit inverted
(spec/45_corruptor_environment.md R204). -/
theorem run_flipTurns (hp : s.phase = .idle) {a bit : Nat} (ha : a < s.caps.ibufBytes)
    (he : s.events = flipTurns s a bit ++ rest) :
    core.run 2 s = .next { s with
      ibuf := s.ibuf.write a (s.hostByte .ibuf a ^^^ (1 <<< bit)), events := rest
      rdata := some (.byte (s.hostByte .ibuf a)), draws := s.draws + 1 } := by
  have hwrite := step_writeIbuf_idle (s := { s with
    events := .host (.writeIbuf a (s.hostByte .ibuf a ^^^ (1 <<< bit))) :: rest
    rdata := some (.byte (s.hostByte .ibuf a)) }) hp rfl
  rw [if_pos ha] at hwrite
  exact run_succ (step_readIbuf_idle hp he) (run_one hwrite)

/-- Settles O59: the byte that FLIP writes is the one that holds the position, and its bit is the position's. -/
theorem flipStatement : Obligations.FlipStatement := by
  unfold Obligations.FlipStatement
  intro s y sz count c j rest hp hy hcap h8 hcount
  have h9 : 9 ≤ s.ilen.toNat := ((s.hasInput_iff y).1 hy).1 ▸ (List.getElem?_eq_some_iff.1 h8).1
  have hevents := HostStmt.events_flip s sz c j hp (hy.fileSize hcap h8)
  have hfits := flipFits_iff_of_windows (c := c) (j := j) h9 hcount
  refine ⟨fun hout => ?_, fun hj hc => ?_⟩
  · rw [hevents, if_neg (hfits.not.2 (by omega))]
  · rw [hevents, if_pos (hfits.2 ⟨hj, hc⟩)]
    have ha : positionByte sz.n c j < s.ilen.toNat := by
      have := position_lt hcount hj hc
      simp only [positionByte, headerBytes]
      omega
    refine ⟨_, _, rfl, fun he => ?_⟩
    refine ⟨_, _, run_flipTurns hp (ha.trans_le hcap) he, hy.write rfl rfl, ?_, ?_, ?_, rfl⟩
    · exact List.take_set_of_le (Nat.le_add_right ..)
    · exact unpack_drop_set_position (hy.hostByte hcap ha)
    · exact fun b hb => (s.ibuf.read_write _ _ b).trans (if_neg hb)

end Sys2Proof.Machine
end

section
/-! SUPPORT. The laws of the bit-position map (spec/40_bit_position_map.md R106). -/

namespace Sys2Proof.Machine

variable (sz : CwSize)

/-- The data positions are the positions below n but 0 and the parity positions (spec/40_bit_position_map.md R101). -/
theorem mem_dataPositions {p : Nat} : p ∈ dataPositions sz ↔ p < sz.n ∧ ¬ (p = 0 ∨ p ∈ parityPositions sz) := by
  simp [dataPositions]

/-- What gather reads is a matter of the data positions alone (spec/40_bit_position_map.md R105). -/
theorem ppmGather_congr {w w' : BitStream} (h : ∀ p ∈ dataPositions sz, w[p]? = w'[p]?) :
    ppmGather sz w = ppmGather sz w' :=
  List.map_congr_left fun p hp => by rw [List.getD_eq_getElem?_getD, List.getD_eq_getElem?_getD, h p hp]

/-- A chunk's scatter has its data positions in common with the chunk's codeword, so it gathers to the chunk. -/
theorem ppmGather_ppmScatter {d : BitStream} (hd : d.length = sz.k) : ppmGather sz (ppmScatter sz d) = d :=
  (ppmGather_congr sz fun _ hp => (cwenc_getElem?_of_notMem sz d (notMem_parityPositions sz (.inr hp))).symm).trans
    (ppmGather_cwenc sz hd)

/-- Scatter after gather clears position 0 and the parity positions (spec/40_bit_position_map.md R106). -/
theorem ppmScatter_ppmGather {w : BitStream} (hw : w.length = sz.n) :
    ppmScatter sz (ppmGather sz w) = w.mapIdx fun j b => if j = 0 ∨ j ∈ parityPositions sz then false else b := by
  refine List.ext_getElem?' fun p hp => ?_
  replace hp : p < sz.n := by simpa [hw] using hp
  rw [List.getElem?_mapIdx]
  by_cases hfree : p = 0 ∨ p ∈ parityPositions sz
  · rw [ppmScatter_getElem?_of_notMem sz _ hp fun hdata => ((mem_dataPositions sz).1 hdata).2 hfree,
      List.getElem?_eq_getElem (hw ▸ hp), Option.map_some, if_pos hfree]
  · rw [ppmScatter_ppmGather_getElem? sz hw ((mem_dataPositions sz).2 ⟨hp, hfree⟩)]
    simp only [if_neg hfree, Option.map_id']

/-- Settles O37: scatter and gather meet at the data positions, and touch no other position. -/
theorem positionMapLaws : Obligations.PositionMapLaws := by
  unfold Obligations.PositionMapLaws
  refine fun sz => ⟨fun d => ppmGather_ppmScatter sz, fun w => ppmScatter_ppmGather sz, fun w p v _ hp => ?_⟩
  have hne : ∀ q ∈ dataPositions sz, p ≠ q := by
    rintro q hq rfl
    exact ((mem_dataPositions sz).1 hq).2 hp
  refine ⟨ppmGather_congr sz fun q hq => List.getElem?_set_ne (hne q hq), ppmGather_congr sz fun q hq => ?_⟩
  rw [flipBit_getElem?, if_neg (hne q hq)]

end Sys2Proof.Machine
end

section
/-! SUPPORT. The bits of a word as a BitStream, and what a one-hot word does to them (spec/00_scope.md R8, R9). -/

namespace Sys2Proof.Machine

@[simp] theorem bitsOf_length (n v : Nat) : (bitsOf n v).length = n := by simp [bitsOf]

@[simp] theorem bitsOf_getElem? (n v i : Nat) : (bitsOf n v)[i]? = if i < n then some (v.testBit i) else none := by
  split <;> simp [bitsOf, *]

/-- Bit i of a word's stream, 0 above the stream. -/
theorem bitsOf_getD (n v i : Nat) : (bitsOf n v).getD i false = (decide (i < n) && v.testBit i) := by
  rw [List.getD_eq_getElem?_getD, bitsOf_getElem?]
  by_cases h : i < n <;> simp [h]

/-- A bus carries a shorter stream when its bits are those of the stream, 0 above it. -/
theorem bitsOf_eq_append_zeros {m v : Nat} {w : BitStream} (hw : w.length ≤ m)
    (h : ∀ i < m, v.testBit i = w.getD i false) : bitsOf m v = w ++ zeros (m - w.length) := by
  refine List.ext_getElem?' fun i hi => ?_
  replace hi : i < m := by simpa [hw] using hi
  rw [bitsOf_getElem?, if_pos hi, h i hi, List.getD_eq_getElem?_getD]
  rcases Nat.lt_or_ge i w.length with hlt | hge
  · rw [List.getElem?_append_left hlt, List.getElem?_eq_getElem hlt, Option.getD_some]
  · rw [List.getElem?_append_right hge, List.getElem?_eq_none hge, zeros_getElem?, if_pos (by omega), Option.getD_none]

/-- A word below 2^n on a wider bus. -/
theorem bitsOf_eq_bitsOf_append_zeros {n m v : Nat} (hn : n ≤ m) (hv : v < 2 ^ n) :
    bitsOf m v = bitsOf n v ++ zeros (m - n) := by
  have hbit : ∀ i < m, v.testBit i = (bitsOf n v).getD i false := fun i _ => by
    rw [bitsOf_getD]
    rcases Nat.lt_or_ge i n with hi | hi
    · simp [hi]
    · simp [Nat.testBit_lt_two_pow (hv.trans_le (Nat.pow_le_pow_right (by decide) hi))]
  simpa using bitsOf_eq_append_zeros (by simpa using hn) hbit

/-- Or with a one-hot word sets its bit. -/
theorem bitsOf_or_shiftLeft {m : Nat} (c : BitVec m) (e : Nat) :
    bitsOf m (c ||| (1#m <<< e)).toNat = (bitsOf m c.toNat).set e true := by
  refine List.ext_getElem?' fun i hi => ?_
  replace hi : i < m := by simpa using hi
  rw [List.getElem?_set, bitsOf_length, bitsOf_getElem?, bitsOf_getElem?, if_pos hi, if_pos hi, ← BitVec.twoPow_eq,
    BitVec.testBit_toNat, BitVec.testBit_toNat, BitVec.getLsbD_or, BitVec.getLsbD_twoPow]
  by_cases he : e = i
  · subst he; simp [hi]
  · simp [he]

/-- Xor with a one-hot word flips its bit. -/
theorem bitsOf_xor_shiftLeft {m : Nat} (c : BitVec m) (e : Nat) :
    bitsOf m (c ^^^ (1#m <<< e)).toNat = flipBit (bitsOf m c.toNat) e := by
  refine List.ext_getElem?' fun i hi => ?_
  replace hi : i < m := by simpa using hi
  rw [flipBit_getElem?, bitsOf_getElem?, bitsOf_getElem?, if_pos hi, if_pos hi, ← BitVec.twoPow_eq,
    BitVec.testBit_toNat, BitVec.testBit_toNat, BitVec.getLsbD_xor, BitVec.getLsbD_twoPow]
  by_cases he : e = i
  · subst he; simp only [hi, decide_true, Bool.and_self, Bool.xor_true, if_true, Option.map_some]
  · simp [he]

/-- A flip inside the first part of a stream. -/
theorem flipBit_append_left {w z : BitStream} {e : Nat} (he : e < w.length) :
    flipBit (w ++ z) e = flipBit w e ++ z := by
  refine List.ext_getElem? fun i => ?_
  rw [flipBit_getElem?, List.getElem?_append, List.getElem?_append, flipBit_getElem?, flipBit_length]
  rcases eq_or_ne e i with rfl | hne
  · rw [if_pos rfl, if_pos he, if_pos he, if_pos rfl]
  · rw [if_neg hne, if_neg hne]

end Sys2Proof.Machine
end

section
/-! SUPPORT. The sub-blocks on their buses compute the functions (spec/40_bit_position_map.md R108;
spec/41_syndrome_parity_corrector.md R133). -/

namespace Sys2Proof.Machine

/-- A wire carries its bit to its own position of the bus. -/
theorem getLsbD_wire {m : Nat} (b : Bool) (p : Nat) {i : Nat} (hi : i < m) :
    ((BitVec.ofBool b).setWidth m <<< p).getLsbD i = (p == i && b) := by
  rw [BitVec.getLsbD_shiftLeft, BitVec.getLsbD_setWidth, BitVec.getLsbD_ofBool]
  rcases Nat.lt_trichotomy i p with hlt | rfl | hgt
  · simp [hlt, hlt.ne']
  · simp [hi, Nat.zero_lt_of_lt hi]
  · simp [Nat.sub_ne_zero_of_lt hgt, hgt.ne]

/-- Wires laid over a word one after the other add their bits at the positions where they end. -/
theorem getLsbD_foldl_wires {α : Type} {m : Nat} (pos : α → Nat) (bit : α → Bool) (l : List α) (c : BitVec m)
    {i : Nat} (hi : i < m) :
    (l.foldl (fun c a => c ||| ((BitVec.ofBool (bit a)).setWidth m <<< pos a)) c).getLsbD i =
      (c.getLsbD i || l.any fun a => pos a == i && bit a) := by
  induction l generalizing c with
  | nil => simp
  | cons a l ih =>
    rw [List.foldl_cons, ih, List.any_cons, ← Bool.or_assoc, BitVec.getLsbD_or, getLsbD_wire _ _ hi]

/-- Bit i of a wiring, the or of its wires, is set when a wire that ends at position i is. -/
theorem getLsbD_wires {α : Type} {m : Nat} (pos : α → Nat) (bit : α → Bool) (l : List α) {i : Nat} (hi : i < m) :
    (l.foldl (fun c a => c ||| ((BitVec.ofBool (bit a)).setWidth m <<< pos a)) 0).getLsbD i =
      l.any fun a => pos a == i && bit a :=
  (getLsbD_foldl_wires pos bit l 0 hi).trans (by simp)

/-- The only wire that ends at a position decides its bit. -/
theorem any_wires_eq {α : Type} {pos : α → Nat} {bit : α → Bool} {l : List α} {a : α} {i : Nat} (ha : a ∈ l)
    (hpos : pos a = i) (honly : ∀ x ∈ l, pos x = i → x = a) : (l.any fun x => pos x == i && bit x) = bit a := by
  rw [Bool.eq_iff_iff, List.any_eq_true]
  constructor
  · rintro ⟨x, hx, hwire⟩
    obtain ⟨hend, hbit⟩ := Bool.and_eq_true_iff.1 hwire
    exact honly x hx (eq_of_beq hend) ▸ hbit
  · exact fun hbit => ⟨a, ha, Bool.and_eq_true_iff.2 ⟨beq_of_eq hpos, hbit⟩⟩

theorem CwSize.n_le (sz : CwSize) : sz.n ≤ 16 := by cases sz <;> decide

/-- The data positions of a size are those of size 16 below n: one wiring serves all three sizes
(spec/40_bit_position_map.md R108). -/
theorem dataPositions_getElem?_iff (sz : CwSize) {j p : Nat} :
    (dataPositions sz)[j]? = some p ↔ (dataPositions .n16)[j]? = some p ∧ p < sz.n := by
  have htake : dataPositions sz = (dataPositions .n16).take sz.k := by cases sz <;> decide
  have hlow : ∀ j < 11, ∀ p < sz.n, (dataPositions .n16)[j]? = some p → j < sz.k := by cases sz <;> decide
  constructor
  · intro h
    refine ⟨?_, dataPositions_lt sz (List.mem_of_getElem? h)⟩
    rw [htake, List.getElem?_take] at h
    exact (Option.ite_none_right_eq_some.1 h).2
  · rintro ⟨h, hp⟩
    have hj : j < 11 := (List.getElem?_eq_some_iff.1 h).1
    rw [htake, List.getElem?_take, if_pos (hlow j hj p hp h), h]

/-- The mask of a size passes the wires below n. -/
theorem getLsbD_and_positionMask (sz : CwSize) (cw : BitVec 16) {i : Nat} (hi : i < 16) :
    (cw &&& positionMask sz).getLsbD i = (cw.getLsbD i && decide (i < sz.n)) := by
  rw [BitVec.getLsbD_and, positionMask, BitVec.getLsbD_ofNat, Nat.testBit_two_pow_sub_one, decide_eq_true hi,
    Bool.true_and]

/-- Scatter wires bit j of the chunk to data position j (spec/40_bit_position_map.md R108). -/
theorem getLsbD_scatterPort_data (sz : CwSize) (d : BitVec 11) {j p : Nat} (hp : (dataPositions sz)[j]? = some p) :
    (scatterPort sz d).getLsbD p = d.getLsbD j := by
  obtain ⟨hp16, hn⟩ := (dataPositions_getElem?_iff sz).1 hp
  have hlt : p < 16 := hn.trans_le sz.n_le
  have honly : ∀ x ∈ (dataPositions .n16).zipIdx, x.1 = p → x = (p, j) := fun x hx he => by
    rw [List.mem_zipIdx_iff_getElem?, he, ← hp16] at hx
    have hj := (List.getElem?_eq_some_iff.1 hp16).1
    exact Prod.ext he ((List.getElem?_inj hj (dataPositions_nodup .n16)).1 hx.symm).symm
  rw [scatterPort, getLsbD_and_positionMask sz _ hlt, decide_eq_true hn, Bool.and_true,
    getLsbD_wires Prod.fst (fun x => d.getLsbD x.2) _ hlt]
  exact any_wires_eq (pos := Prod.fst) (a := (p, j)) (List.mem_zipIdx_iff_getElem?.2 hp16) rfl honly

/-- Scatter passes no wire to a position that is no data position (spec/40_bit_position_map.md R108). -/
theorem getLsbD_scatterPort_of_notMem (sz : CwSize) (d : BitVec 11) {i : Nat} (hi : i < 16)
    (hp : i ∉ dataPositions sz) : (scatterPort sz d).getLsbD i = false := by
  refine Bool.eq_false_iff.2 fun hbit => hp ?_
  rw [scatterPort, getLsbD_and_positionMask sz _ hi, Bool.and_eq_true, decide_eq_true_eq,
    getLsbD_wires Prod.fst (fun x => d.getLsbD x.2) _ hi, List.any_eq_true] at hbit
  obtain ⟨⟨x, hx, hwire⟩, hn⟩ := hbit
  obtain rfl : x.1 = i := eq_of_beq (Bool.and_eq_true_iff.1 hwire).1
  exact List.mem_of_getElem? ((dataPositions_getElem?_iff sz).2 ⟨List.mem_zipIdx_iff_getElem?.1 hx, hn⟩)

/-- Gather wires data position j of the word, if it lies below n, to bit j of the chunk
(spec/40_bit_position_map.md R108). -/
theorem getLsbD_gatherPort (sz : CwSize) (cw : BitVec 16) {j p : Nat} (hp : (dataPositions .n16)[j]? = some p) :
    (gatherPort sz cw).getLsbD j = (cw.getLsbD p && decide (p < sz.n)) := by
  have hj : j < 11 := (List.getElem?_eq_some_iff.1 hp).1
  have honly : ∀ x ∈ (dataPositions .n16).zipIdx, x.2 = j → x = (p, j) := fun x hx he => by
    rw [List.mem_zipIdx_iff_getElem?, he, hp, Option.some_inj] at hx
    exact Prod.ext hx.symm he
  rw [gatherPort, getLsbD_wires Prod.snd (fun x => (cw &&& positionMask sz).getLsbD x.1) _ hj,
    ← getLsbD_and_positionMask sz cw (dataPositions_lt .n16 (List.mem_of_getElem? hp))]
  exact any_wires_eq (pos := Prod.snd) (a := (p, j)) (List.mem_zipIdx_iff_getElem?.2 hp) rfl honly

/-- PPM scatter on its buses (spec/40_bit_position_map.md R108). -/
theorem bitsOf_scatterPort (sz : CwSize) (d : BitVec 11) :
    bitsOf 16 (scatterPort sz d).toNat = ppmScatter sz (bitsOf sz.k d.toNat) ++ zeros (16 - sz.n) := by
  have hbit : ∀ i < 16, (scatterPort sz d).toNat.testBit i = (ppmScatter sz (bitsOf sz.k d.toNat)).getD i false := by
    intro i hi
    rw [BitVec.testBit_toNat, List.getD_eq_getElem?_getD]
    by_cases hdata : i ∈ dataPositions sz
    · obtain ⟨j, hj⟩ := List.mem_iff_getElem?.1 hdata
      have hk : j < sz.k := dataPositions_length sz ▸ (List.getElem?_eq_some_iff.1 hj).1
      rw [getLsbD_scatterPort_data sz d hj, ppmScatter_getElem?_data sz (bitsOf_length ..) hj, bitsOf_getElem?,
        if_pos hk, BitVec.testBit_toNat, Option.getD_some]
    · rw [getLsbD_scatterPort_of_notMem sz d hi hdata]
      rcases Nat.lt_or_ge i sz.n with hlt | hge
      · rw [ppmScatter_getElem?_of_notMem sz _ hlt hdata, Option.getD_some]
      · rw [List.getElem?_eq_none (by simpa using hge), Option.getD_none]
  simpa using bitsOf_eq_append_zeros (by simpa using sz.n_le) hbit

/-- PPM gather on its buses (spec/40_bit_position_map.md R108). -/
theorem bitsOf_gatherPort (sz : CwSize) (cw : BitVec 16) :
    bitsOf 11 (gatherPort sz cw).toNat = ppmGather sz (bitsOf sz.n cw.toNat) ++ zeros (11 - sz.k) := by
  have hbit : ∀ j < 11, (gatherPort sz cw).toNat.testBit j = (ppmGather sz (bitsOf sz.n cw.toNat)).getD j false := by
    intro j hj
    obtain ⟨p, hp⟩ : ∃ p, (dataPositions .n16)[j]? = some p := ⟨_, List.getElem?_eq_getElem hj⟩
    rw [BitVec.testBit_toNat, getLsbD_gatherPort sz cw hp, List.getD_eq_getElem?_getD, ppmGather, List.getElem?_map]
    by_cases hn : p < sz.n
    · rw [(dataPositions_getElem?_iff sz).2 ⟨hp, hn⟩, Option.map_some, Option.getD_some, bitsOf_getD,
        BitVec.testBit_toNat, Bool.and_comm]
    · have hnone : (dataPositions sz)[j]? = none := Option.eq_none_iff_forall_ne_some.2 fun q hq => by
        obtain ⟨hq16, hqn⟩ := (dataPositions_getElem?_iff sz).1 hq
        exact hn (Option.some_inj.1 (hp.symm.trans hq16) ▸ hqn)
      rw [hnone, decide_eq_false hn, Bool.and_false, Option.map_none, Option.getD_none]
  simpa using bitsOf_eq_append_zeros (by simpa using sz.k_le) hbit

/-- The xor loop of SYN on its bus is that on numbers, for positions that fit the bus. -/
theorem toNat_foldl_xor {m : Nat} (bit : Nat → Bool) {l : List Nat} (hl : ∀ i ∈ l, i < 2 ^ m) (s : BitVec m) :
    (l.foldl (fun s i => if bit i then s ^^^ BitVec.ofNat m i else s) s).toNat =
      l.foldl (fun s i => if bit i then s ^^^ i else s) s.toNat := by
  induction l generalizing s with
  | nil => rfl
  | cons i l ih =>
    obtain ⟨hi, hl⟩ := List.forall_mem_cons.1 hl
    have hstep : (if bit i then s ^^^ BitVec.ofNat m i else s).toNat = if bit i then s.toNat ^^^ i else s.toNat := by
      split
      · rw [BitVec.toNat_xor, BitVec.toNat_ofNat, Nat.mod_eq_of_lt hi]
      · rfl
    rw [List.foldl_cons, List.foldl_cons, ih hl, hstep]

/-- SYN on its buses (spec/41_syndrome_parity_corrector.md R120, R133). -/
theorem toNat_synPort (sz : CwSize) (cw : BitVec 16) : (synPort sz cw).toNat = syndrome sz (bitsOf sz.n cw.toNat) := by
  rw [synPort, toNat_foldl_xor cw.getLsbD fun i hi => (List.mem_range.1 hi).trans_le sz.n_le]
  refine List.foldl_ext _ _ _ fun s i hi => ?_
  rw [bitsOf_getD, decide_eq_true (List.mem_range.1 hi), Bool.true_and, BitVec.testBit_toNat]

/-- PBS sets on the bus the positions that the function sets in the word the bus carries. -/
theorem bitsOf_foldl_or (bit : Nat → Bool) {l : List Nat} {c : BitVec 16} {w z : BitStream}
    (hc : bitsOf 16 c.toNat = w ++ z) (hl : ∀ b ∈ l, 2 ^ b < w.length) :
    bitsOf 16 (l.foldl (fun cw b => if bit b then cw ||| (1#16 <<< (2 ^ b)) else cw) c).toNat =
      l.foldl (fun cw b => if bit b then cw.set (2 ^ b) true else cw) w ++ z := by
  induction l generalizing c w with
  | nil => exact hc
  | cons b l ih =>
    obtain ⟨hb, hl⟩ := List.forall_mem_cons.1 hl
    rw [List.foldl_cons, List.foldl_cons]
    cases bit b
    · exact ih hc hl
    · refine ih ?_ (by simpa using hl)
      rw [if_pos rfl, if_pos rfl, bitsOf_or_shiftLeft, hc, List.set_append_left _ _ hb]

/-- PBS on its buses (spec/41_syndrome_parity_corrector.md R124, R133). -/
theorem bitsOf_pbsPort (sz : CwSize) {cw : BitVec 16} (hcw : cw.toNat < 2 ^ sz.n) :
    bitsOf 16 (pbsPort sz cw).toNat = pbs sz (bitsOf sz.n cw.toNat) ++ zeros (16 - sz.n) := by
  rw [pbs, ← toNat_synPort]
  exact bitsOf_foldl_or _ (bitsOf_eq_bitsOf_append_zeros sz.n_le hcw) fun b hb => by
    simpa using two_pow_lt_n sz (List.mem_range.1 hb)

/-- The syndrome is a position of the word (spec/41_syndrome_parity_corrector.md R121). -/
theorem syndrome_lt (sz : CwSize) (cw : BitStream) : syndrome sz cw < sz.n :=
  sz.n_eq_two_pow ▸ Nat.lt_pow_two_of_testBit _ fun _ => testBit_syndrome_above sz cw

/-- BFL hits nothing exactly at syndrome 0 (spec/41_syndrome_parity_corrector.md R133). -/
theorem bflHit_eq_false_iff (s : BitVec 4) : bflHit s = false ↔ s = 0 := bne_eq_false_iff_eq

/-- The flip mask is one-hot at a syndrome that is not 0 (spec/41_syndrome_parity_corrector.md R133). -/
theorem bflFlipmask_eq (s : BitVec 4) : bflFlipmask s = if s.toNat = 0 then 0#16 else 1#16 <<< s.toNat := by
  by_cases hs : s = 0
  · subst hs; rfl
  · have hhit : bflHit s = true := Bool.ne_false_iff.1 ((bflHit_eq_false_iff s).not.2 hs)
    have hnat : s.toNat ≠ 0 := fun h0 => hs (BitVec.eq_of_toNat_eq h0)
    rw [if_neg hnat, bflFlipmask, if_pos hhit]
    exact BitVec.eq_of_toNat_eq (by simp)

/-- Bit 0 of the flip mask is never set (spec/41_syndrome_parity_corrector.md R133). -/
theorem getLsbD_bflFlipmask_zero (s : BitVec 4) : (bflFlipmask s).getLsbD 0 = false := by
  rw [bflFlipmask_eq]
  split
  · rfl
  · next hs => rw [BitVec.getLsbD_shiftLeft, decide_eq_true (Nat.pos_of_ne_zero hs)]; rfl

/-- BFL with COR on their buses: both correctors flip the position that the syndrome names
(spec/41_syndrome_parity_corrector.md R128, R133). -/
theorem bitsOf_corPort (sz : CwSize) {cw : BitVec 16} (hcw : cw.toNat < 2 ^ sz.n) (fix : Bool) :
    bitsOf 16 (corPort cw (bflFlipmask (synPort sz cw)) fix).toNat =
      correct sz fix (bitsOf sz.n cw.toNat) ++ zeros (16 - sz.n) := by
  have hbus := bitsOf_eq_bitsOf_append_zeros sz.n_le hcw
  cases fix with
  | false => simpa [corPort] using hbus
  | true =>
    have hmask : corPort cw (bflFlipmask (synPort sz cw)) true = cw ^^^ bflFlipmask (synPort sz cw) := by
      rw [corPort, if_pos rfl, BitVec.and_allOnes]
    rw [hmask, bflFlipmask_eq, correct, if_pos rfl, ← toNat_synPort]
    by_cases hs : (synPort sz cw).toNat = 0
    · rw [if_pos hs, if_pos hs, BitVec.xor_zero, hbus]
    · have hlt : (synPort sz cw).toNat < (bitsOf sz.n cw.toNat).length := by
        rw [toNat_synPort, bitsOf_length]; exact syndrome_lt sz _
      rw [if_neg hs, if_neg hs, bitsOf_xor_shiftLeft, hbus, flipBit_append_left hlt]

/-- Settles O56: the ports' wirings and loops do to the bits of the bus what the functions do to the word on it. -/
theorem portsMatchFunctions : Obligations.PortsMatchFunctions := by
  unfold Obligations.PortsMatchFunctions
  exact ⟨bitsOf_scatterPort, bitsOf_gatherPort,
    fun sz cw hcw => ⟨toNat_synPort sz cw, bitsOf_pbsPort sz hcw, bitsOf_corPort sz hcw⟩,
    fun s => ⟨getLsbD_bflFlipmask_zero s, bflHit_eq_false_iff s⟩⟩

end Sys2Proof.Machine
end

section
/-! SUPPORT. The syndrome is linear and does not see position 0; what the corrector does to flipped codewords
(spec/41_syndrome_parity_corrector.md R121 to R131). -/

namespace Sys2Proof.Machine

variable (sz : CwSize)

/-- A bit of a word with one position flipped. -/
theorem flipBit_getD {w : BitStream} {i : Nat} (e : Nat) (hi : i < w.length) :
    (flipBit w e).getD i false = (w.getD i false ^^ decide (e = i)) := by
  rw [List.getD_eq_getElem?_getD, List.getD_eq_getElem?_getD, flipBit_getElem?, List.getElem?_eq_getElem hi]
  by_cases he : e = i <;> simp [he]

/-- Flipping a position twice restores the word. -/
@[simp] theorem flipBit_flipBit (w : BitStream) (e : Nat) : flipBit (flipBit w e) e = w := by
  refine List.ext_getElem? fun i => ?_
  rw [flipBit_getElem?, flipBit_getElem?]
  by_cases he : e = i <;> simp [he, Function.comp_def]

/-- A flip inside a word changes it. -/
theorem flipBit_ne_self {w : BitStream} {i : Nat} (hi : i < w.length) : flipBit w i ≠ w := by
  intro h
  have hbit := flipBit_getD i hi
  rw [h, decide_eq_true rfl, Bool.xor_true] at hbit
  exact (Bool.eq_not_self _).1 hbit

/-- A bit of the exclusive-or of two words. -/
theorem xorBits_getD {a b : BitStream} {i : Nat} (ha : i < a.length) (hb : i < b.length) :
    (xorBits a b).getD i false = (a.getD i false ^^ b.getD i false) := by
  simp [xorBits, ha, hb]

/-- The loop of SYN on a word that is bit for bit the xor of two words, from a start value that is a xor. -/
theorem foldl_syndrome_xor {a b c : BitStream} {l : List Nat}
    (h : ∀ i ∈ l, c.getD i false = (a.getD i false ^^ b.getD i false)) (s t : Nat) :
    l.foldl (fun s i => if c.getD i false then s ^^^ i else s) (s ^^^ t) =
      l.foldl (fun s i => if a.getD i false then s ^^^ i else s) s ^^^
        l.foldl (fun s i => if b.getD i false then s ^^^ i else s) t := by
  induction l generalizing s t with
  | nil => rfl
  | cons i l ih =>
    obtain ⟨hi, hl⟩ := List.forall_mem_cons.1 h
    have hstep : (if c.getD i false then s ^^^ t ^^^ i else s ^^^ t) =
        (if a.getD i false then s ^^^ i else s) ^^^ (if b.getD i false then t ^^^ i else t) := by
      rw [hi]
      cases a.getD i false <;> cases b.getD i false
      · rfl
      · exact Nat.xor_assoc ..
      · exact Nat.xor_right_comm ..
      · show s ^^^ t = s ^^^ i ^^^ (t ^^^ i)
        rw [Nat.xor_comm t i, ← Nat.xor_assoc, Nat.xor_xor_cancel_right]
    rw [List.foldl_cons, hstep, ih hl]
    rfl

/-- The syndrome is linear (spec/41_syndrome_parity_corrector.md R123). -/
theorem syndrome_of_getD_xor {a b c : BitStream}
    (h : ∀ i < sz.n, c.getD i false = (a.getD i false ^^ b.getD i false)) :
    syndrome sz c = syndrome sz a ^^^ syndrome sz b :=
  foldl_syndrome_xor (fun i hi => h i (List.mem_range.1 hi)) 0 0

/-- A word with the one position e set has syndrome e (spec/41_syndrome_parity_corrector.md R120). -/
theorem syndrome_flipBit_zeros {e : Nat} (he : e < sz.n) : syndrome sz (flipBit (zeros sz.n) e) = e := by
  revert e; cases sz <;> decide

/-- Flipping position e changes the syndrome by `xor e`: a flip is the xor with the word whose one set position is e
(spec/41_syndrome_parity_corrector.md R123). -/
theorem syndrome_flipBit {w : BitStream} (hw : w.length = sz.n) {e : Nat} (he : e < sz.n) :
    syndrome sz (flipBit w e) = syndrome sz w ^^^ e := by
  have hxor : ∀ i < sz.n, (flipBit w e).getD i false = (w.getD i false ^^ (flipBit (zeros sz.n) e).getD i false) :=
    fun i hi => by
      rw [flipBit_getD e (hw ▸ hi), flipBit_getD e (by simpa using hi), zeros, List.getD_replicate _ hi, Bool.false_xor]
  rw [syndrome_of_getD_xor sz hxor, syndrome_flipBit_zeros sz he]

/-- Settles O38: the loop of SYN is linear bit by bit, and a flip is a xor with a one-hot word. -/
theorem syndromeLinear : Obligations.SyndromeLinear := by
  unfold Obligations.SyndromeLinear
  exact fun sz a b ha hb =>
    ⟨syndrome_of_getD_xor sz fun i hi => xorBits_getD (ha ▸ hi) (hb ▸ hi), fun e he => syndrome_flipBit sz ha he⟩

/-- Words that differ at most in position 0 have one syndrome (spec/41_syndrome_parity_corrector.md R122). -/
theorem syndrome_congr {w w' : BitStream} (h : ∀ i, i ≠ 0 → w[i]? = w'[i]?) : syndrome sz w = syndrome sz w' := by
  refine List.foldl_ext _ _ _ fun s i _ => ?_
  rcases eq_or_ne i 0 with rfl | hi
  · rw [Nat.xor_zero, ite_self, ite_self]
  · rw [List.getD_eq_getElem?_getD, List.getD_eq_getElem?_getD, h i hi]

/-- The corrector never flips position 0 (spec/41_syndrome_parity_corrector.md R122). -/
theorem correct_getElem?_zero (fix : Bool) (w : BitStream) : (correct sz fix w)[0]? = w[0]? := by
  unfold correct
  split
  · split
    · rfl
    · rw [flipBit_getElem?, if_neg ‹_›]
  · rfl

/-- Settles O39: position 0 adds 0 to the xor of positions. -/
theorem syndromeRangeAndPositionZero : Obligations.SyndromeRangeAndPositionZero := by
  unfold Obligations.SyndromeRangeAndPositionZero
  refine fun sz cw _ => ⟨⟨syndrome_lt sz cw, sz.n_eq_two_pow⟩, testBit_syndrome sz cw, fun v => ?_, ?_,
    fun fix => correct_getElem?_zero sz fix cw⟩
  · exact syndrome_congr sz fun i hi => List.getElem?_set_ne hi.symm
  · exact syndrome_congr sz fun i hi => by rw [flipBit_getElem?, if_neg hi.symm]

/-- Parity position b is 2^b (spec/40_bit_position_map.md R101). -/
theorem parityPositions_getElem? {b : Nat} (hb : b < sz.parityBits) : (parityPositions sz)[b]? = some (2 ^ b) := by
  rw [parityPositions, List.getElem?_map, List.getElem?_range hb, Option.map_some]

section
variable {w : BitStream} (h : ∀ b < sz.parityBits, w[2 ^ b]? = some false)
include h

/-- The synthesizer writes bit b of the syndrome at a clear position 2^b
(spec/41_syndrome_parity_corrector.md R124). -/
theorem pbs_getElem?_parity (hw : w.length = sz.n) {b : Nat} (hb : b < sz.parityBits) :
    (pbs sz w)[2 ^ b]? = some ((syndrome sz w).testBit b) := by
  rw [pbs_eq_setAll sz h, setAll_getElem?_of_mem (parityPositions_nodup sz) (parityPositions_getElem? sz hb)
    (hw ▸ two_pow_lt_n sz hb) (by simpa using hb), List.getElem?_map, List.getElem?_range hb, Option.map_some]

/-- The synthesizer changes no data position (spec/41_syndrome_parity_corrector.md R124). -/
theorem pbs_getElem?_data {p : Nat} (hp : p ∈ dataPositions sz) : (pbs sz w)[p]? = w[p]? := by
  rw [pbs_eq_setAll sz h, setAll_getElem?_of_notMem (notMem_parityPositions sz (.inr hp))]

/-- The synthesizer makes the syndrome 0: with a clear bit at 2^b, bit b of the syndrome that it writes there is the
xor of the data bits that 2^b covers (spec/41_syndrome_parity_corrector.md R125). -/
theorem syndrome_pbs (hw : w.length = sz.n) : syndrome sz (pbs sz w) = 0 := by
  refine (syndrome_eq_zero_iff sz _).2 fun b hb => ?_
  have hclear : w.getD (2 ^ b) false = false := by rw [List.getD_eq_getElem?_getD, h b hb, Option.getD_some]
  rw [coveredParity_congr sz fun p => pbs_getElem?_data sz h, List.getD_eq_getElem?_getD,
    pbs_getElem?_parity sz h hw hb, Option.getD_some, testBit_syndrome_parity sz w hb, hclear, Bool.false_xor]

end

/-- Settles O40: each parity bit written is that of the data bits it covers. -/
theorem parityMakesSyndromeZero : Obligations.ParityMakesSyndromeZero := by
  unfold Obligations.ParityMakesSyndromeZero
  exact fun sz w hw h =>
    syndrome_pbs sz (fun b hb => h _ (List.mem_of_getElem? (parityPositions_getElem? sz hb))) hw

/-- With `fix` a word of syndrome x has position x flipped, or nothing (spec/41_syndrome_parity_corrector.md R128). -/
theorem correct_true_of_syndrome {w : BitStream} {x : Nat} (h : syndrome sz w = x) :
    correct sz true w = if x = 0 then w else flipBit w x := by
  rw [correct, if_pos rfl, h]

/-- A flip at a data position flips the one bit of the gathered chunk that lies there. -/
theorem ppmGather_flipBit_data {w : BitStream} (hw : w.length = sz.n) {i e : Nat}
    (he : (dataPositions sz)[i]? = some e) : ppmGather sz (flipBit w e) = flipBit (ppmGather sz w) i := by
  refine List.ext_getElem?' fun j hj => ?_
  replace hj : j < (dataPositions sz).length := by simpa using hj
  obtain ⟨p, hp⟩ : ∃ p, (dataPositions sz)[j]? = some p := ⟨_, List.getElem?_eq_getElem hj⟩
  have hlt : p < w.length := hw ▸ dataPositions_lt sz (List.mem_of_getElem? hp)
  have hsame : i = j ↔ e = p := by
    rw [← Option.some_inj (a := e), ← he, ← hp]
    exact (List.getElem?_inj (List.getElem?_eq_some_iff.1 he).1 (dataPositions_nodup sz)).symm
  rw [flipBit_getElem?, ppmGather_getElem? sz _ hp, ppmGather_getElem? sz _ hp, flipBit_getD e hlt]
  by_cases hep : e = p
  · rw [if_pos (hsame.2 hep), decide_eq_true hep, Bool.xor_true, Option.map_some]
  · rw [if_neg (hsame.not.2 hep), decide_eq_false hep, Bool.xor_false]

/-- A flip at position 0 or at a parity position is not gathered (spec/40_bit_position_map.md R106). -/
theorem ppmGather_flipBit_free {w : BitStream} (hw : w.length = sz.n) {e : Nat}
    (he : e = 0 ∨ e ∈ parityPositions sz) : ppmGather sz (flipBit w e) = ppmGather sz w := by
  obtain ⟨-, -, hfree⟩ := positionMapLaws sz
  exact (hfree w e false hw he).2

/-- Flipping positions one after the other xors each of them to the syndrome
(spec/41_syndrome_parity_corrector.md R131). -/
theorem syndrome_foldl_flipBit {errs : List Nat} (herrs : ∀ e ∈ errs, e < sz.n) {w : BitStream}
    (hw : w.length = sz.n) : syndrome sz (errs.foldl flipBit w) = errs.foldl (· ^^^ ·) (syndrome sz w) := by
  induction errs generalizing w with
  | nil => rfl
  | cons e errs ih =>
    obtain ⟨he, herrs⟩ := List.forall_mem_cons.1 herrs
    rw [List.foldl_cons, ih herrs (by rw [flipBit_length, hw]), syndrome_flipBit sz hw he, List.foldl_cons]

section
variable {sz} {e : Nat}

/-- One flipped position is located (spec/41_syndrome_parity_corrector.md R130). -/
theorem syndrome_flipBit_cwenc (d : BitStream) (he : e < sz.n) : syndrome sz (flipBit (cwenc sz d) e) = e := by
  rw [syndrome_flipBit sz (cwenc_length sz d) he, syndrome_cwenc, Nat.zero_xor]

/-- A flip at position 0 is not corrected (spec/41_syndrome_parity_corrector.md R122). -/
theorem correct_flipBit_cwenc_zero (d : BitStream) :
    correct sz true (flipBit (cwenc sz d) 0) = flipBit (cwenc sz d) 0 := by
  rw [correct_true_of_syndrome sz (syndrome_flipBit_cwenc d sz.n_pos), if_pos rfl]

/-- A flip at any other position is corrected (spec/41_syndrome_parity_corrector.md R130). -/
theorem correct_flipBit_cwenc (d : BitStream) (he : e < sz.n) (h1 : 1 ≤ e) :
    correct sz true (flipBit (cwenc sz d) e) = cwenc sz d := by
  rw [correct_true_of_syndrome sz (syndrome_flipBit_cwenc d he), if_neg (Nat.ne_of_gt h1), flipBit_flipBit]

/-- With `fix` one flip is decoded away (spec/41_syndrome_parity_corrector.md R130). -/
theorem cwdec_true_flipBit_cwenc {d : BitStream} (hd : d.length = sz.k) (he : e < sz.n) :
    cwdec sz true (flipBit (cwenc sz d) e) = d := by
  rcases Nat.eq_zero_or_pos e with rfl | hpos
  · rw [cwdec, correct_flipBit_cwenc_zero, ppmGather_flipBit_free sz (cwenc_length sz d) (.inl rfl),
      ppmGather_cwenc sz hd]
  · rw [cwdec, correct_flipBit_cwenc d he hpos, ppmGather_cwenc sz hd]

/-- Without `fix` a flip at a data position flips the bit of the chunk that lies there
(spec/41_syndrome_parity_corrector.md R130). -/
theorem cwdec_false_flipBit_cwenc_data {d : BitStream} (hd : d.length = sz.k) {i : Nat}
    (hi : (dataPositions sz)[i]? = some e) :
    cwdec sz false (flipBit (cwenc sz d) e) = flipBit d i := by
  rw [cwdec, correct_false, ppmGather_flipBit_data sz (cwenc_length sz d) hi, ppmGather_cwenc sz hd]

/-- Without `fix` a flip leaves the chunk as it was exactly when it hits no data position
(spec/41_syndrome_parity_corrector.md R130). -/
theorem cwdec_false_flipBit_cwenc_iff {d : BitStream} (hd : d.length = sz.k) (he : e < sz.n) :
    cwdec sz false (flipBit (cwenc sz d) e) = d ↔ e = 0 ∨ e ∈ parityPositions sz := by
  constructor
  · intro h
    by_contra hdata
    obtain ⟨i, hi⟩ := List.mem_iff_getElem?.1 ((mem_dataPositions sz).2 ⟨he, hdata⟩)
    have hlt : i < d.length := by simpa [hd] using (List.getElem?_eq_some_iff.1 hi).1
    exact flipBit_ne_self hlt ((cwdec_false_flipBit_cwenc_data hd hi).symm.trans h)
  · intro h
    rw [cwdec, correct_false, ppmGather_flipBit_free sz (cwenc_length sz d) h, ppmGather_cwenc sz hd]

end

/-- Settles O43: the syndrome of a codeword is 0, so one flip at e makes it e. -/
theorem singleErrorLaw : Obligations.SingleErrorLaw := by
  unfold Obligations.SingleErrorLaw
  refine fun sz d e hd he => ⟨syndrome_flipBit_cwenc d he, cwdec_true_flipBit_cwenc hd he,
    correct_flipBit_cwenc d he, ?_, cwdec_false_flipBit_cwenc_iff hd he,
    fun i => cwdec_false_flipBit_cwenc_data hd⟩
  rintro rfl
  exact correct_flipBit_cwenc_zero d

/-- Settles O44: each flip xors its position to the syndrome, which is 0 in a codeword. -/
theorem beyondOneError : Obligations.BeyondOneError := by
  unfold Obligations.BeyondOneError
  refine ⟨?_, by decide⟩
  rintro sz d errs r x - - herrs rfl rfl
  have hsyn : syndrome sz (errs.foldl flipBit (cwenc sz d)) = errs.foldl (· ^^^ ·) 0 := by
    rw [syndrome_foldl_flipBit sz herrs (cwenc_length sz d), syndrome_cwenc]
  exact ⟨hsyn, correct_true_of_syndrome sz hsyn⟩

end Sys2Proof.Machine
end

section
/-! SUPPORT. Packing and unpacking undo one another up to the padding of the final byte
(spec/42_chunk_framer_and_packing.md R140 to R142). -/

namespace Sys2Proof.Machine

/-- Zero bits on the right do not change which bits read as 1. -/
theorem append_zeros_getD (b : BitStream) (m i : Nat) : (b ++ zeros m).getD i false = b.getD i false := by
  rcases Nat.lt_or_ge i b.length with hi | hi
  · rw [List.getD_append _ _ _ _ hi]
  · rw [List.getD_append_right _ _ _ _ hi, List.getD_eq_default _ _ hi, zeros, List.getD_eq_getElem?_getD,
      List.getElem?_getD_replicate_default_eq]

/-- Two streams of one length are equal when they read alike. -/
theorem bitStream_ext {a b : BitStream} (hlen : a.length = b.length)
    (h : ∀ i < a.length, a.getD i false = b.getD i false) : a = b := by
  refine List.ext_getElem hlen fun i hi hi' => ?_
  rw [← List.getD_eq_getElem a false hi, ← List.getD_eq_getElem b false hi', h i hi]

/-- Bit i of byte q of a packed stream is element `q * 8 + i` of the stream, 0 past its end. -/
theorem getLsbD_of_pack_getElem? {b : BitStream} {q i : Nat} {v : Byte} (hv : (pack b)[q]? = some v) (hi : i < 8) :
    v.getLsbD i = b.getD (q * 8 + i) false := by
  have hq : q < ceilDiv b.length 8 := by simpa using (List.getElem?_eq_some_iff.1 hv).1
  obtain rfl : packByte ((b.drop (q * 8)).take 8) = v := Option.some.inj ((pack_getElem? b hq).symm.trans hv)
  rw [getLsbD_packByte _ hi, List.getD_eq_getElem?_getD, List.getElem?_take_of_lt hi, List.getElem?_drop,
    List.getD_eq_getElem?_getD]

/-- Bit i of a byte sequence's byte q is element `q * 8 + i` of its unpacking. -/
theorem unpack_getD {bytes : List Byte} {q i : Nat} {v : Byte} (hv : bytes[q]? = some v) (hi : i < 8) :
    (unpack bytes).getD (q * 8 + i) false = v.getLsbD i := by
  have hdiv : (q * 8 + i) / 8 = q := by omega
  have hmod : (q * 8 + i) % 8 = i := by omega
  rw [List.getD_eq_getElem?_getD, unpack_getElem?, hdiv, hmod, hv, Option.map_some, Option.getD_some]

/-- `pack` inverts `unpack` (spec/42_chunk_framer_and_packing.md R142). -/
theorem pack_unpack (bytes : List Byte) : pack (unpack bytes) = bytes := by
  have hlen : (pack (unpack bytes)).length = bytes.length := by
    rw [pack_length, unpack_length, Nat.mul_comm, ceilDiv_mul_self _ _ (by decide)]
  refine List.ext_getElem hlen fun q hq hq' => BitVec.eq_of_getLsbD_eq fun i hi => ?_
  rw [getLsbD_of_pack_getElem? (List.getElem?_eq_getElem hq) hi, unpack_getD (List.getElem?_eq_getElem hq') hi]

/-- The whole bytes that cover L bits hold `(8 - L mod 8) mod 8` bits more. -/
theorem eight_mul_ceilDiv (L : Nat) : 8 * ceilDiv L 8 = L + (8 - L % 8) % 8 := by
  unfold ceilDiv
  omega

/-- Unpacking a packed stream gives the stream and the padding of its final byte
(spec/42_chunk_framer_and_packing.md R142). -/
theorem unpack_pack (b : BitStream) : unpack (pack b) = b ++ zeros ((8 - b.length % 8) % 8) := by
  have hlen : (unpack (pack b)).length = 8 * ceilDiv b.length 8 := by simp
  refine bitStream_ext ?_ fun i hi => ?_
  · rw [hlen, eight_mul_ceilDiv, List.length_append, zeros_length]
  · have hq : i / 8 < (pack b).length := by
      rw [pack_length]
      omega
    have hv := List.getElem?_eq_getElem hq
    have hr : i % 8 < 8 := Nat.mod_lt i (by decide)
    rw [append_zeros_getD, ← Nat.div_add_mod' i 8, unpack_getD hv hr, getLsbD_of_pack_getElem? hv hr]

/-- Settles O45: both directions compare bit i of byte q with bit `q * 8 + i` of the stream. -/
theorem packUnpackLaws : Obligations.PackUnpackLaws := by
  unfold Obligations.PackUnpackLaws
  refine ⟨pack_unpack, unpack_pack, fun b => ?_⟩
  rw [unpack_pack, List.append_right_eq_self, zeros, List.replicate_eq_nil_iff]
  omega

end Sys2Proof.Machine
end

section
/-! SUPPORT. The framer: its chunks are the stream and its padding, and `last_chunk_size` counts what the earlier
chunks leave (spec/42_chunk_framer_and_packing.md R143 to R147). -/

namespace Sys2Proof.Machine

variable {k : Nat} {b : BitStream}

/-- Some chunk is needed exactly when there is a bit. -/
theorem ceilDiv_eq_zero_iff {L : Nat} (hk : 0 < k) : ceilDiv L k = 0 ↔ L = 0 := by
  simpa using ceilDiv_le_iff L k 0 hk

/-- The empty stream has no chunk (spec/90_conflicts.md C1, C6). -/
theorem frame_nil (hk : 0 < k) : frame k [] = ([], 0) :=
  if_pos ((ceilDiv_eq_zero_iff hk).2 rfl)

/-- The chunks and `last_chunk_size` of a stream that holds a bit. -/
theorem frame_of_pos (hk : 0 < k) (hb : 1 ≤ b.length) :
    frame k b = (groups k (ceilDiv b.length k) (b ++ zeros (ceilDiv b.length k * k - b.length)),
      b.length - k * (ceilDiv b.length k - 1)) :=
  if_neg fun h => Nat.ne_of_gt hb ((ceilDiv_eq_zero_iff hk).1 h)

/-- Laid end to end, the chunks are the stream and zero bits (spec/42_chunk_framer_and_packing.md R143). -/
theorem frame_flatten (hk : 0 < k) (hb : 1 ≤ b.length) :
    (frame k b).1.flatten = b ++ zeros (ceilDiv b.length k * k - b.length) := by
  have hcover := le_ceilDiv_mul b.length k hk
  rw [frame_of_pos hk hb, groups_flatten, List.take_of_length_le]
  rw [List.length_append, zeros_length]
  omega

/-- The last chunk's bits and those of the full chunks before it are all of the stream's. -/
theorem frame_lcs_add (hk : 0 < k) (hb : 1 ≤ b.length) :
    (frame k b).2 + k * (ceilDiv b.length k - 1) = b.length := by
  have hover := ceilDiv_mul_lt b.length k hk
  rw [frame_of_pos hk hb]
  refine Nat.sub_add_cancel ?_
  rw [Nat.mul_sub, Nat.mul_one, Nat.mul_comm]
  omega

/-- The last chunk is not empty (spec/42_chunk_framer_and_packing.md R144). -/
theorem frame_lcs_pos (hk : 0 < k) (hb : 1 ≤ b.length) : 1 ≤ (frame k b).2 := by
  have hover := ceilDiv_mul_lt b.length k hk
  have hadd := frame_lcs_add hk hb
  rw [Nat.mul_sub, Nat.mul_one, Nat.mul_comm] at hadd
  omega

/-- The stream and its `k - lcs` padding bits fill the chunks (spec/42_chunk_framer_and_packing.md R144). -/
theorem frame_padding (hk : 0 < k) (hb : 1 ≤ b.length) :
    b.length + (k - (frame k b).2) = (frame k b).1.length * k := by
  have hle := frame_lcs_le k hk b
  have hadd := frame_lcs_add hk hb
  have hcover := le_ceilDiv_mul b.length k hk
  have hfirst : k * (ceilDiv b.length k - 1) + k = ceilDiv b.length k * k := by
    rw [← Nat.mul_succ, Nat.mul_comm, Nat.succ_eq_add_one, Nat.sub_add_cancel]
    exact Nat.pos_of_ne_zero fun h => Nat.ne_of_gt hb ((ceilDiv_eq_zero_iff hk).1 h)
  rw [frame_count]
  omega

/-- `last_chunk_size` by the remainder of the length (spec/42_chunk_framer_and_packing.md R144). -/
theorem frame_lcs_eq (hk : 0 < k) (hb : 1 ≤ b.length) :
    (frame k b).2 = if b.length % k = 0 then k else b.length % k := by
  have hmod : b.length % k = (frame k b).2 % k := by
    conv_lhs => rw [← frame_lcs_add hk hb, Nat.add_mul_mod_self_left]
  rcases Nat.lt_or_eq_of_le (frame_lcs_le k hk b) with hlt | heq
  · rw [hmod, Nat.mod_eq_of_lt hlt, if_neg (Nat.ne_of_gt (frame_lcs_pos hk hb))]
  · rw [hmod, heq, Nat.mod_self, if_pos rfl]

/-- `unframe` inverts `frame` at every chunk size (spec/42_chunk_framer_and_packing.md R147). -/
theorem unframe_frame (hk : 0 < k) (b : BitStream) : unframe k (frame k b).2 (frame k b).1 = b := by
  rcases Nat.eq_zero_or_pos b.length with h0 | hb
  · obtain rfl := List.eq_nil_of_length_eq_zero h0
    rw [frame_nil hk]
    rfl
  · have hcount : ¬(frame k b).1.length = 0 := by
      rw [frame_count, ceilDiv_eq_zero_iff hk]
      exact Nat.ne_of_gt hb
    have hlen : (frame k b).1.length * k - (k - (frame k b).2) = b.length := by
      rw [← frame_padding hk hb, Nat.add_sub_cancel]
    rw [unframe, if_neg hcount, hlen, frame_flatten hk hb, List.take_left]

/-- Settles O46: trimming the padding leaves the stream's own bits. -/
theorem unframeInvertsFrame : Obligations.UnframeInvertsFrame := by
  unfold Obligations.UnframeInvertsFrame
  exact fun sz => unframe_frame sz.k_pos

/-- `last_chunk_size` of m whole bytes depends at k = 11 on m mod 11 only
(spec/42_chunk_framer_and_packing.md R145). -/
theorem lcs_eleven_table (r : Nat) (hr : r < 11) :
    some (if 8 * r % 11 = 0 then 11 else 8 * r % 11) = [11, 8, 5, 2, 10, 7, 4, 1, 9, 6, 3][r]? := by
  revert r
  decide

/-- `last_chunk_size` of a whole number of bytes (spec/42_chunk_framer_and_packing.md R145). -/
theorem frame_unpack_lcs {x : List Byte} (hx : x ≠ []) :
    (frame 1 (unpack x)).2 = 1 ∧ (frame 4 (unpack x)).2 = 4 ∧
    some (frame 11 (unpack x)).2 = [11, 8, 5, 2, 10, 7, 4, 1, 9, 6, 3][x.length % 11]? := by
  have hlen := unpack_length x
  have hpos : 1 ≤ (unpack x).length := by
    have := List.length_pos_iff.2 hx
    omega
  refine ⟨?_, ?_, ?_⟩
  · rw [frame_lcs_eq (by decide) hpos, Nat.mod_one, if_pos rfl]
  · rw [frame_lcs_eq (by decide) hpos, if_pos (by omega)]
  · rw [frame_lcs_eq (by decide) hpos, ← lcs_eleven_table _ (Nat.mod_lt _ (by decide)), hlen, Nat.mul_mod_mod]

/-- Settles O47: the earlier chunks are full, so the last one holds 1 to k bits, those of the length modulo k. -/
theorem lastChunkSizeValues : Obligations.LastChunkSizeValues := by
  unfold Obligations.LastChunkSizeValues
  refine ⟨fun sz b => ?_, fun x => frame_unpack_lcs⟩
  have hle := frame_lcs_le sz.k sz.k_pos b
  refine ⟨fun hb => ?_, fun h0 => ?_, hle, by have := sz.k_le; omega⟩
  · have hpos := frame_lcs_pos sz.k_pos hb
    exact ⟨hpos, hle, frame_lcs_eq sz.k_pos hb, Nat.sub_le_sub_left hpos _, frame_padding sz.k_pos hb⟩
  · obtain rfl := List.eq_nil_of_length_eq_zero h0
    rw [frame_nil sz.k_pos]
    exact ⟨rfl, rfl⟩

end Sys2Proof.Machine
end

section
/-! SUPPORT. How a command ends, in terms of the result or the error of its operation (spec/10_state.md R41;
spec/60_exceptions.md R218, R220). -/

namespace Sys2Proof.Machine

variable {s t : State} {i : Instr} {out : List Byte} {lcs count : Nat} {sz : CwSize} {e : ErrorCode}

theorem CwSize.toNat_toByte (sz : CwSize) : sz.toByte.toNat = sz.n := by cases sz <;> rfl

/-- Ending with an error leaves the state of spec/60_exceptions.md R220. -/
theorem State.errorEnd (s : State) (e : ErrorCode) : ErrorEnd s (s.endWithError e) e.code :=
  ⟨rfl, rfl, rfl, rfl, rfl, rfl, rfl, ⟨rfl, rfl, rfl, rfl, rfl, rfl, rfl, rfl⟩⟩

/-- Under legal capacities a result within the bounds fits OLEN, FRAME and NCHUNK, so none of them wraps
(spec/60_exceptions.md R218). -/
theorem ResultFits.resultEnd (hcaps : s.caps.legal) (h : ResultFits s.caps out lcs sz count) :
    ResultEnd s (s.endWithResult out lcs sz count) out lcs sz.n count := by
  obtain ⟨⟨-, hibuf⟩, -, hobuf⟩ := hcaps
  obtain ⟨hlen, hlcs, hcount⟩ := h
  have hk := sz.k_le
  simp only [Config.maxCapacity] at hibuf hobuf
  exact {
    err := rfl
    olen := Nat.mod_eq_of_lt (by omega)
    lcs := Nat.mod_eq_of_lt (by omega)
    n := sz.toNat_toByte
    nchunk := Nat.mod_eq_of_lt (by omega)
    phase := rfl
    done := rfl
    stored := fun a ha => by simp [Memory.read_writeBytes, ha]
    kept := fun a ha => by simp [Memory.read_writeBytes, Nat.not_lt.2 ha]
    rest := ⟨rfl, rfl, rfl, rfl, rfl, rfl, rfl, rfl⟩ }

/-- A command whose operation ends with an error completes with that error. -/
theorem exec_of_err (h : operationOf i s = .ok (.err e)) : ∃ t, exec i s = .next t ∧ ErrorEnd s t e.code :=
  ⟨_, (exec_eq_complete i s).trans (congrArg s.complete h), s.errorEnd e⟩

/-- Under legal capacities a command whose operation has a result completes with that result. -/
theorem exec_of_ok (hcaps : s.caps.legal) (h : operationOf i s = .ok (.ok out lcs sz count)) :
    ∃ t, exec i s = .next t ∧ ResultEnd s t out lcs sz.n count :=
  ⟨_, (exec_eq_complete i s).trans (congrArg s.complete h), (operationOf_fits h).resultEnd hcaps⟩

/-- Under legal capacities a command that completes ends with its operation's own result or error. -/
theorem exec_next_end (hcaps : s.caps.legal) (h : exec i s = .next t) :
    (∃ out lcs sz count, operationOf i s = .ok (.ok out lcs sz count) ∧
      ResultEnd s t out lcs (CwSize.n sz) count) ∨
    (∃ e, operationOf i s = .ok (.err e) ∧ ErrorEnd s t e.code) := by
  rcases exec_next i s t h with ⟨out, lcs, sz, count, hr, rfl⟩ | ⟨e, hr, rfl⟩
  · exact .inl ⟨out, lcs, sz, count, hr, (operationOf_fits hr).resultEnd hcaps⟩
  · exact .inr ⟨e, hr, s.errorEnd e⟩

/-- Settles O33: a result is stored to `OBUF[0..OLEN)` only, an error stores nothing. -/
theorem commandFrame : Obligations.CommandFrame := by
  unfold Obligations.CommandFrame
  intro i s t hcaps h
  rcases exec_next_end hcaps h with ⟨out, lcs, sz, count, -, hend⟩ | ⟨e, -, hend⟩
  · exact ⟨hend.rest, hend.phase, hend.done, fun a ha => hend.kept a (hend.olen ▸ ha), fun he => absurd hend.err he⟩
  · exact ⟨hend.rest, hend.phase, hend.done, fun a _ => by rw [hend.obuf], fun _ => hend.obuf⟩

end Sys2Proof.Machine
end

section
/-! SUPPORT. ENC at each size: the count, length and `last_chunk_size` of its result, and how the commands complete
(spec/30_encoding.md R82; spec/43_encoder.md R168, R169). -/

namespace Sys2Proof.Machine

variable {s : State} {i : Instr} {x : List Byte} {sz : CwSize}

theorem encCount_n4 (ilen : Nat) : encCount .n4 ilen = 8 * ilen := Nat.div_one _

theorem encCount_n8 (ilen : Nat) : encCount .n8 ilen = 2 * ilen := by
  change (8 * ilen + 3) / 4 = 2 * ilen
  omega

theorem encCount_n16 (ilen : Nat) : encCount .n16 ilen = (8 * ilen + 10) / 11 := rfl

/-- The codewords fill whole bytes, so the payload has no padding (spec/43_encoder.md R163). -/
theorem eight_dvd_encCount_mul_n (sz : CwSize) (ilen : Nat) : 8 ∣ encCount sz ilen * sz.n := by
  cases sz with
  | n4 => exact encCount_n4 ilen ▸ (Nat.dvd_mul_right 8 ilen).mul_right 4
  | n8 => exact Nat.dvd_mul_left 8 _
  | n16 => exact Nat.dvd_mul_left_of_dvd (by decide) _

/-- The length of ENC's result is the header and the payload's whole bytes (spec/30_encoding.md R82). -/
theorem encLength_eq (sz : CwSize) (ilen : Nat) : encLength sz ilen = 9 + encCount sz ilen * sz.n / 8 := by
  obtain ⟨q, hq⟩ := eight_dvd_encCount_mul_n sz ilen
  rw [encLength, hq, Nat.mul_div_cancel_left q (by decide), Nat.mul_comm, ceilDiv_mul_self q 8 (by decide), headerBytes]

theorem encLength_n4 (ilen : Nat) : encLength .n4 ilen = 9 + 4 * ilen := by
  rw [encLength_eq, encCount_n4, CwSize.n]
  omega

theorem encLength_n8 (ilen : Nat) : encLength .n8 ilen = 9 + 2 * ilen := by
  rw [encLength_eq, encCount_n8, CwSize.n]
  omega

theorem encLength_n16 (ilen : Nat) : encLength .n16 ilen = 9 + 2 * encCount .n16 ilen := by
  rw [encLength_eq, CwSize.n]
  omega

/-- The last chunk has the bits that the full chunks before it leave, none for the empty input
(spec/42_chunk_framer_and_packing.md R143). -/
theorem encodeFile_lcs (sz : CwSize) (x : List Byte) :
    (encodeFile sz x).lcs = 8 * x.length - sz.k * (encCount sz x.length - 1) := by
  rw [encCount, ← unpack_length]
  rcases Nat.eq_zero_or_pos (unpack x).length with h0 | hpos
  · rw [encodeFile, List.eq_nil_of_length_eq_zero h0, frame_nil sz.k_pos]
    exact (Nat.zero_sub _).symm
  · rw [encodeFile, frame_of_pos sz.k_pos hpos]

/-- At a supported size ENC's tests are the two capacities (spec/43_encoder.md R168). -/
theorem encTests_toByte (caps : Capacities) (sz : CwSize) (ilen : Nat) :
    encTests caps sz.toByte ilen =
      if caps.ibufBytes < ilen ∨ caps.obufBytes < encLength sz ilen then .error .capacityExceeded else .ok sz := by
  rw [encTests, (CwSize.ofByte_eq_some _ sz).2 rfl]
  by_cases hi : caps.ibufBytes < ilen <;> simp [hi]

/-- ENC of a written input that fits both capacities completes with the encoded file. -/
theorem exec_enc_result (hop : operationOf i s = encOp s.caps sz.toByte s.ilen.toNat s.ibuf) (hcaps : s.caps.legal)
    (hx : s.HasInput x) (hin : s.ilen.toNat ≤ s.caps.ibufBytes) (hout : encLength sz s.ilen.toNat ≤ s.caps.obufBytes) :
    ∃ t, exec i s = .next t ∧ t.olen.toNat = encLength sz s.ilen.toNat ∧
      ResultEnd s t (encodeFile sz x).file (8 * s.ilen.toNat - sz.k * (encCount sz s.ilen.toNat - 1)) sz.n
        (encCount sz s.ilen.toNat) := by
  obtain ⟨hlen, -⟩ := (s.hasInput_iff x).1 hx
  have htests : encTests s.caps sz.toByte s.ilen.toNat = .ok sz := (encTests_ok ..).2 ⟨rfl, hin, hout⟩
  have hres : encOp s.caps sz.toByte s.ilen.toNat s.ibuf = .ok (encResult sz x) := by
    unfold State.HasInput at hx
    simp only [encOp, htests, hx]
  obtain ⟨t, ht, hend⟩ := exec_of_ok hcaps (hop.trans hres)
  rw [encodeFile_lcs, encodeFile_count, hlen] at hend
  exact ⟨t, ht, by rw [hend.olen, encodeFile_length, hlen], hend⟩

/-- ENC whose input or result exceeds its capacity ends with CapacityExceeded, before any read of IBUF
(spec/60_exceptions.md R218, R219). -/
theorem exec_enc_capacityExceeded (hop : operationOf i s = encOp s.caps sz.toByte s.ilen.toNat s.ibuf)
    (h : s.caps.ibufBytes < s.ilen.toNat ∨ s.caps.obufBytes < encLength sz s.ilen.toNat) :
    ∃ t, exec i s = .next t ∧ ErrorEnd s t 4 := by
  refine exec_of_err (e := .capacityExceeded) (hop.trans ?_)
  rw [encOp, encTests_toByte, if_pos h]

/-- Settles O23: at k = 1 every bit is a chunk of its own. -/
theorem encL1EncodesInput : Obligations.EncL1EncodesInput := by
  unfold Obligations.EncL1EncodesInput
  intro s fix x hcaps hx hin hout
  have hlcs : 8 * s.ilen.toNat - CwSize.n4.k * (8 * s.ilen.toNat - 1) = if s.ilen.toNat = 0 then 0 else 1 := by
    rw [show CwSize.n4.k = 1 from rfl]
    split <;> omega
  have h := exec_enc_result (i := .encL1 fix) (sz := .n4) rfl hcaps hx hin (encLength_n4 _ ▸ hout)
  rwa [encLength_n4, encCount_n4, hlcs] at h

/-- Settles O24: at k = 4 a byte is two chunks, so the last one is full. -/
theorem encL2EncodesInput : Obligations.EncL2EncodesInput := by
  unfold Obligations.EncL2EncodesInput
  intro s fix x hcaps hx hin hout
  have hlcs : 8 * s.ilen.toNat - CwSize.n8.k * (2 * s.ilen.toNat - 1) = if s.ilen.toNat = 0 then 0 else 4 := by
    rw [show CwSize.n8.k = 4 from rfl]
    split <;> omega
  have h := exec_enc_result (i := .encL2 fix) (sz := .n8) rfl hcaps hx hin (encLength_n8 _ ▸ hout)
  rwa [encLength_n8, encCount_n8, hlcs] at h

/-- Settles O25: the least count of chunks of 11 bits that cover the input is the encoder's. -/
theorem encL3EncodesInput : Obligations.EncL3EncodesInput := by
  unfold Obligations.EncL3EncodesInput
  intro s fix x count hcaps hx hcover hleast hin hout
  obtain rfl : encCount .n16 s.ilen.toNat = count := by
    rw [encCount_n16]
    omega
  have h := exec_enc_result (i := .encL3 fix) (sz := .n16) rfl hcaps hx hin (encLength_n16 _ ▸ hout)
  rwa [encLength_n16] at h

/-- Settles O26: the test of the size stands before every other. -/
theorem encInvEndsInvalidChunkSize : Obligations.EncInvEndsInvalidChunkSize := by
  unfold Obligations.EncInvEndsInvalidChunkSize
  refine ⟨fun s n fix h4 h8 h16 => ?_, by decide⟩
  exact exec_of_err (i := .encInv n fix) (encOp_unsupported _ _ _ (supportedN_eq_false.2 ⟨h4, h8, h16⟩))

/-- Settles O27: both capacity tests stand before any read of IBUF. -/
theorem encCapacityExceeded : Obligations.EncCapacityExceeded := by
  unfold Obligations.EncCapacityExceeded
  intro s fix
  rw [← encLength_n4, ← encLength_n8, ← encCount_n16, ← encLength_n16]
  exact ⟨exec_enc_capacityExceeded (i := .encL1 fix) rfl, exec_enc_capacityExceeded (i := .encL2 fix) rfl,
    exec_enc_capacityExceeded (i := .encL3 fix) rfl⟩

end Sys2Proof.Machine
end

section
/-! SUPPORT. The encoded file: its header, and its payload's windows are the codewords of the chunks
(spec/43_encoder.md R163, R164). -/

namespace Sys2Proof.Machine

/-- Regrouping a payload gives the codewords back (spec/42_chunk_framer_and_packing.md R148). -/
theorem windows_payloadBits (sz : CwSize) (chunks : List BitStream) :
    windows sz.n (payloadBits sz chunks) = chunks.map (cwenc sz) := by
  rw [windows, payloadBits, flatMap_cwenc_length, Nat.mul_div_cancel _ sz.n_pos]
  induction chunks with
  | nil => rfl
  | cons d ds ih =>
    rw [List.length_cons, groups, List.flatMap_cons, List.take_left' (cwenc_length sz d),
      List.drop_left' (cwenc_length sz d), ih, List.map_cons]

/-- The payload of an encoded file is its codewords' bits, without padding (spec/43_encoder.md R163). -/
theorem unpack_payload (sz : CwSize) (x : List Byte) :
    unpack ((encodeFile sz x).file.drop 9) = payloadBits sz (frame sz.k (unpack x)).1 := by
  have hbits : 8 ∣ (payloadBits sz (frame sz.k (unpack x)).1).length := by
    rw [payloadBits, flatMap_cwenc_length, frame_count, unpack_length]
    exact eight_dvd_encCount_mul_n sz x.length
  obtain ⟨-, -, hwhole⟩ := packUnpackLaws
  exact (hwhole _).2 (Nat.mod_eq_zero_of_dvd hbits)

/-- The windows of an encoded file are the codewords of its chunks (spec/43_encoder.md R163). -/
theorem windows_encodeFile (sz : CwSize) (x : List Byte) :
    windows sz.n (unpack ((encodeFile sz x).file.drop 9)) = (frame sz.k (unpack x)).1.map (cwenc sz) := by
  rw [unpack_payload, windows_payloadBits]

/-- Settles O48: the header is written out, and every window is a codeword. -/
theorem encodedFileProperties : Obligations.EncodedFileProperties := by
  unfold Obligations.EncodedFileProperties
  rintro sz x y lcs count rfl rfl rfl
  refine ⟨rfl, rfl, frame_lcs_le sz.k sz.k_pos _, rfl, ?_, encodeFile_count sz x, fun w hw => ?_⟩
  · rw [encodeFile_length, encodeFile_count, encLength, headerBytes]
  · rw [windows_encodeFile] at hw
    obtain ⟨d, -, rfl⟩ := List.mem_map.1 hw
    exact ⟨cwenc_length sz d, cwenc_getElem?_zero sz d, syndrome_cwenc sz d⟩

@[simp] theorem pack_nil : pack [] = [] := by decide

/-- The empty input has no chunk, so its file is the header alone (spec/43_encoder.md R164). -/
theorem encodeFile_nil (sz : CwSize) : encodeFile sz [] = { file := fileHeader 0 sz, lcs := 0, count := 0 } := by
  rw [encodeFile, unpack_nil, frame_nil sz.k_pos, payloadBits, List.flatMap_nil, pack_nil, List.append_nil,
    List.length_nil]

/-- A header with no payload passes every test of the decoder and holds no bit (spec/44_decoder.md R190). -/
theorem decodeFile_fileHeader_zero (sz : CwSize) (fix : Bool) :
    decodeFile fix (fileHeader 0 sz) = .ok { data := [], lcs := 0, size := sz, count := 0 } := by
  cases sz <;> cases fix <;> decide

/-- Settles O50: the file is the header alone, and it decodes to no bit. -/
theorem emptyInput : Obligations.EmptyInput := by
  unfold Obligations.EmptyInput
  intro sz fix
  rw [encodeFile_nil]
  exact ⟨rfl, rfl, rfl, decodeFile_fileHeader_zero sz fix⟩

end Sys2Proof.Machine
end

section
/-! SUPPORT. Streams made of words of one length: their bits, their windows, and flips window by window
(spec/42_chunk_framer_and_packing.md R143 to R148; spec/45_corruptor_environment.md R200). -/

namespace Sys2Proof.Machine

variable {n k : Nat} {b : BitStream}

/-- Words of `n` bits laid end to end. -/
theorem flatten_length_of_forall {ws : List BitStream} (h : ∀ w ∈ ws, w.length = n) :
    ws.flatten.length = ws.length * n := by
  rw [List.length_flatten, List.sum_eq_card_nsmul _ n (by simpa using h), List.length_map, smul_eq_mul]

/-- Bit i of word c is bit `c * n + i` of the words laid end to end. -/
theorem flatten_getD_of_forall {ws : List BitStream} (h : ∀ w ∈ ws, w.length = n) {c i : Nat} {w : BitStream}
    (hw : ws[c]? = some w) (hi : i < n) : ws.flatten.getD (c * n + i) false = w.getD i false := by
  induction ws generalizing c with
  | nil => simp at hw
  | cons v ws ih =>
    obtain ⟨hv, hws⟩ := List.forall_mem_cons.1 h
    rw [List.flatten_cons]
    cases c with
    | zero =>
      obtain rfl : v = w := by simpa using hw
      rw [Nat.zero_mul, Nat.zero_add, List.getD_append _ _ _ _ (hv ▸ hi)]
    | succ c =>
      rw [show (c + 1) * n + i = v.length + (c * n + i) by rw [hv, Nat.succ_mul]; omega,
        List.getD_append_right _ _ _ _ (Nat.le_add_right ..), Nat.add_sub_cancel_left]
      exact ih hws hw

/-- Regrouping words of `n` bits gives them back (spec/42_chunk_framer_and_packing.md R148). -/
theorem windows_flatten (hn : 0 < n) {ws : List BitStream} (h : ∀ w ∈ ws, w.length = n) :
    windows n ws.flatten = ws := by
  rw [windows, flatten_length_of_forall h, Nat.mul_div_cancel _ hn]
  induction ws with
  | nil => rfl
  | cons w ws ih =>
    obtain ⟨hw, hws⟩ := List.forall_mem_cons.1 h
    rw [List.length_cons, groups, List.flatten_cons, List.take_left' hw, List.drop_left' hw, ih hws]

/-- Groups that lie inside the stream are full. -/
theorem length_of_mem_groups {count : Nat} (h : count * k ≤ b.length) : ∀ w ∈ groups k count b, w.length = k := by
  intro w hw
  obtain ⟨c, hc⟩ := List.mem_iff_getElem?.1 hw
  have hlt : c < count := by simpa using (List.getElem?_eq_some_iff.1 hc).1
  have hle : (c + 1) * k ≤ count * k := Nat.mul_le_mul_right k hlt
  rw [groups_getElem? k count b c hlt] at hc
  obtain rfl := Option.some.inj hc
  rw [Nat.succ_mul] at hle
  rw [List.length_take, List.length_drop]
  omega

/-- Every chunk is full, the last one by its padding (spec/42_chunk_framer_and_packing.md R143). -/
theorem length_of_mem_frame (hk : 0 < k) (b : BitStream) : ∀ d ∈ (frame k b).1, d.length = k := by
  rcases Nat.eq_zero_or_pos b.length with h0 | hb
  · obtain rfl := List.eq_nil_of_length_eq_zero h0
    rw [frame_nil hk]
    exact fun d hd => absurd hd List.not_mem_nil
  · have hcover := le_ceilDiv_mul b.length k hk
    rw [frame_of_pos hk hb]
    refine length_of_mem_groups ?_
    rw [List.length_append, zeros_length]
    omega

/-- As many chunks as a stream has, under its `last_chunk_size`, are trimmed to its length
(spec/42_chunk_framer_and_packing.md R146). -/
theorem unframe_eq_take (hk : 0 < k) (b : BitStream) {chunks : List BitStream}
    (h : chunks.length = (frame k b).1.length) : unframe k (frame k b).2 chunks = chunks.flatten.take b.length := by
  rcases Nat.eq_zero_or_pos b.length with h0 | hb
  · obtain rfl := List.eq_nil_of_length_eq_zero h0
    rw [unframe, if_pos (by rw [h, frame_nil hk]; rfl)]
    rfl
  · have hcount : ¬chunks.length = 0 := by
      rw [h, frame_count, ceilDiv_eq_zero_iff hk]
      exact Nat.ne_of_gt hb
    rw [unframe, if_neg hcount, h, ← frame_padding hk hb, Nat.add_sub_cancel]

/-- The length of unframed chunks: the padding of the last one is dropped, if there is one
(spec/42_chunk_framer_and_packing.md R146). -/
theorem unframe_length {chunks : List BitStream} (lcs : Nat) (h : ∀ d ∈ chunks, d.length = k) :
    (unframe k lcs chunks).length = if chunks.length = 0 then 0 else chunks.length * k - (k - lcs) := by
  rw [unframe]
  split
  · rfl
  · rw [List.length_take, flatten_length_of_forall h]
    omega

/-- A flip behind the first part of a stream. -/
theorem flipBit_append_right (w z : BitStream) (i : Nat) : flipBit (w ++ z) (w.length + i) = w ++ flipBit z i := by
  refine List.ext_getElem? fun j => ?_
  rcases Nat.lt_or_ge j w.length with hj | hj
  · rw [flipBit_getElem?, if_neg (by omega), List.getElem?_append_left hj, List.getElem?_append_left hj]
  · obtain ⟨m, rfl⟩ := Nat.exists_eq_add_of_le hj
    rw [flipBit_getElem?, List.getElem?_append_right hj, List.getElem?_append_right hj, Nat.add_sub_cancel_left,
      flipBit_getElem?]
    simp only [Nat.add_left_cancel_iff]

/-- Flips from window `c + 1` on pass over the first word. -/
theorem flipWindows_append {w : BitStream} (hw : w.length = n) (c : Nat) (draw : List Nat) (p : BitStream) :
    flipWindows n (c + 1) draw (w ++ p) = w ++ flipWindows n c draw p := by
  induction draw generalizing c p with
  | nil => rfl
  | cons d draw ih =>
    rw [flipWindows, show (c + 1) * n + d = w.length + (c * n + d) by rw [hw, Nat.succ_mul]; omega,
      flipBit_append_right, ih, flipWindows]

/-- The channel flips in each word the position drawn for it (spec/45_corruptor_environment.md R200). -/
theorem flipWindows_flatten {ws : List BitStream} (h : ∀ w ∈ ws, w.length = n) {draw : List Nat}
    (hlen : draw.length = ws.length) (hdraw : ∀ d ∈ draw, d < n) :
    flipWindows n 0 draw ws.flatten = (List.zipWith flipBit ws draw).flatten := by
  induction ws generalizing draw with
  | nil =>
    obtain rfl := List.eq_nil_of_length_eq_zero hlen
    rfl
  | cons w ws ih =>
    cases draw with
    | nil => simp at hlen
    | cons d draw =>
      obtain ⟨hw, hws⟩ := List.forall_mem_cons.1 h
      obtain ⟨hd, hdraw⟩ := List.forall_mem_cons.1 hdraw
      rw [flipWindows, Nat.zero_mul, Nat.zero_add d, List.flatten_cons, flipBit_append_left (hw ▸ hd),
        flipWindows_append (by rw [flipBit_length, hw]), ih hws (Nat.succ.inj hlen) hdraw, List.zipWith_cons_cons,
        List.flatten_cons]

end Sys2Proof.Machine
end

section
/-! SUPPORT. The decoder: what each of its tests answers, and how many bits it makes (spec/44_decoder.md R180 to
R190). -/

namespace Sys2Proof.Machine

variable {y : List Byte} {sz : CwSize} {fix : Bool} {lcs count : Nat}

/-- The first test: a header that is not all there, or another magic (spec/44_decoder.md R181). -/
theorem decodeFile_malformed (fix : Bool) (h : y.length < 9 ∨ y.take 7 ≠ magic) :
    decodeFile fix y = .error .malformedHeader := if_pos h

/-- A header that is all there, with the magic, passes the first test (spec/44_decoder.md R181). -/
theorem not_malformed (h9 : 9 ≤ y.length) (hmagic : y.take 7 = magic) :
    ¬(y.length < headerBytes ∨ y.take 7 ≠ magic) :=
  not_or.2 ⟨Nat.not_lt.2 h9, not_not.2 hmagic⟩

/-- The second test: an unsupported size (spec/44_decoder.md R182). -/
theorem decodeFile_unsupported (fix : Bool) (h9 : 9 ≤ y.length) (hmagic : y.take 7 = magic)
    (hn : supportedN (headerN y) = false) : decodeFile fix y = .error .invalidChunkSize := by
  rw [decodeFile, if_neg (not_malformed h9 hmagic), (CwSize.ofByte_eq_none _).2 hn]

/-- The tests that follow once the size is known (spec/44_decoder.md R183, R184). -/
theorem decodeFile_of_size (fix : Bool) (h9 : 9 ≤ y.length) (hmagic : y.take 7 = magic)
    (hsz : CwSize.ofByte (headerN y) = some sz) :
    decodeFile fix y =
      if sz.k < headerLcs y then .error .malformedHeader
      else if 8 * (y.length - 9) % sz.n ≠ 0 then .error .corruptedOrTruncatedFile
      else .ok
        { data := pack (decodedBits sz fix (headerLcs y) (y.drop 9))
          lcs := headerLcs y
          size := sz
          count := 8 * (y.length - 9) / sz.n } := by
  rw [decodeFile, if_neg (not_malformed h9 hmagic), hsz]
  rfl

/-- A file that passes every test decodes to the bits of its payload (spec/44_decoder.md R180, R185, R186). -/
theorem decodeFile_of_count (fix : Bool) (h9 : 9 ≤ y.length) (hmagic : y.take 7 = magic)
    (hsz : headerN y = sz.toByte) (hlcs : headerLcs y ≤ sz.k) (hcount : 8 * (y.length - 9) = count * sz.n) :
    decodeFile fix y =
      .ok { data := pack (decodedBits sz fix (headerLcs y) (y.drop 9)), lcs := headerLcs y, size := sz, count } := by
  rw [decodeFile_of_size fix h9 hmagic ((CwSize.ofByte_eq_some _ _).2 hsz), if_neg (Nat.not_lt.2 hlcs),
    if_neg (by rw [hcount, Nat.mul_mod_left]; exact fun h => h rfl), hcount, Nat.mul_div_cancel _ sz.n_pos]

/-- A window gives k bits and the last one's padding is dropped; no window gives no bit (spec/44_decoder.md R186). -/
theorem decodedBits_length (fix : Bool) (lcs : Nat) {payload : List Byte} (h : 8 * payload.length = count * sz.n) :
    (decodedBits sz fix lcs payload).length = if count = 0 then 0 else count * sz.k - (sz.k - lcs) := by
  have hwindows : ((windows sz.n (unpack payload)).map (cwdec sz fix)).length = count := by
    rw [List.length_map, windows_length, unpack_length, h, Nat.mul_div_cancel _ sz.n_pos]
  rw [decodedBits, unframe_length lcs (by simp), hwindows]

/-- The decoded bytes that cover the decoded bits (spec/44_decoder.md R190). -/
theorem pack_decodedBits_length (fix : Bool) (lcs : Nat) {payload : List Byte}
    (h : 8 * payload.length = count * sz.n) :
    (pack (decodedBits sz fix lcs payload)).length =
      if count = 0 then 0 else (count * sz.k - (sz.k - lcs) + 7) / 8 := by
  rw [pack_length, decodedBits_length fix lcs h, ceilDiv]
  split <;> rfl

theorem CwSize.k_le_n (sz : CwSize) : sz.k ≤ sz.n := by cases sz <;> decide

/-- Header byte 7 as the byte it is (spec/20_memory.md R56). -/
theorem getElem?_seven_eq (h9 : 9 ≤ y.length) : y[7]? = some (BitVec.ofNat 8 (headerLcs y)) := by
  rw [headerLcs, List.getD_eq_getElem?_getD, List.getElem?_eq_getElem (by omega), Option.getD_some,
    BitVec.ofNat_toNat, BitVec.setWidth_eq]

/-- Header byte 8 as the byte it is (spec/20_memory.md R56). -/
theorem getElem?_eight_eq (h9 : 9 ≤ y.length) : y[8]? = some (headerN y) := by
  rw [headerN, List.getD_eq_getElem?_getD, List.getElem?_eq_getElem (by omega), Option.getD_some]

/-- Settles O30: the windows fill the payload, and each holds at most as many bits as it takes. -/
theorem decodedLength : Obligations.DecodedLength := by
  unfold Obligations.DecodedLength
  intro fix y r h
  obtain ⟨h9, -, hn, hlcs, hmod, hr, hdiv, hdata⟩ := decodeFile_ok fix y r h
  have hcount : 8 * (y.length - 9) = r.count * r.size.n := by
    rw [hdiv]
    exact (Nat.div_mul_cancel (Nat.dvd_of_mod_eq_zero hmod)).symm
  have hlen := pack_decodedBits_length fix r.lcs (payload := y.drop 9) (by rw [List.length_drop]; exact hcount)
  have hk : r.count * r.size.k ≤ r.count * r.size.n := Nat.mul_le_mul_left _ r.size.k_le_n
  rw [hdata]
  refine ⟨hr ▸ getElem?_seven_eq h9, hr ▸ hlcs, (getElem?_eight_eq h9).trans (congrArg some hn), ?_, hcount.symm,
    fun h0 => ?_, fun hpos => ?_⟩
  · refine hlen.trans_le ?_
    split <;> omega
  · exact List.eq_nil_of_length_eq_zero (hlen.trans (if_pos h0))
  · exact hlen.trans (if_neg (Nat.ne_of_gt hpos))

end Sys2Proof.Machine
end

section
/-! SUPPORT. The DEC commands: the operation of either on a written input, and how it completes
(spec/44_decoder.md R190; spec/60_exceptions.md R219). -/

namespace Sys2Proof.Machine

variable {s : State} {i : Instr} {n : Byte} {y : List Byte} {r : Decoded} {e : ErrorCode}

/-- DEC.RAW and DEC.FIX are dec_op, without and with correction (spec/44_decoder.md R190). -/
theorem operationOf_dec (hi : i = .decRaw n ∨ i = .decFix n) (s : State) :
    ∃ fix, operationOf i s = decOp s.caps fix s.ilen.toNat s.ibuf := by
  rcases hi with rfl | rfl
  · exact ⟨false, rfl⟩
  · exact ⟨true, rfl⟩

/-- A DEC whose input exceeds IBUF reads no byte (spec/60_exceptions.md R218). -/
theorem decOp_tooLong {caps : Capacities} {ilen : Nat} (h : caps.ibufBytes < ilen) (fix : Bool) (ibuf : Memory) :
    decOp caps fix ilen ibuf = .ok (.err .capacityExceeded) := by
  simp [decOp, decTests, h]

/-- A DEC of a written input that fits IBUF is the result of its bytes (spec/44_decoder.md R190). -/
theorem State.HasInput.decOp_eq (hy : s.HasInput y) (hcap : s.ilen.toNat ≤ s.caps.ibufBytes) (fix : Bool) :
    decOp s.caps fix s.ilen.toNat s.ibuf = .ok (decResult s.caps fix y) := by
  unfold State.HasInput at hy
  simp [decOp, decTests, Nat.not_lt.2 hcap, hy]

/-- An error of `decode` is DEC's error. -/
theorem decResult_of_error {fix : Bool} (caps : Capacities) (h : decodeFile fix y = .error e) :
    decResult caps fix y = .err e := by
  rw [decResult, h]

/-- Decoded bytes that fit OBUF are DEC's result. -/
theorem decResult_of_fits {fix : Bool} {caps : Capacities} (h : decodeFile fix y = .ok r)
    (hcap : r.data.length ≤ caps.obufBytes) : decResult caps fix y = .ok r.data r.lcs r.size r.count := by
  simp [decResult, h, Nat.not_lt.2 hcap]

/-- Decoded bytes that exceed OBUF are an error (spec/60_exceptions.md R218). -/
theorem decResult_of_exceeds {fix : Bool} {caps : Capacities} (h : decodeFile fix y = .ok r)
    (hcap : caps.obufBytes < r.data.length) : decResult caps fix y = .err .capacityExceeded := by
  simp [decResult, h, hcap]

/-- A DEC whose input decodes to bytes that fit OBUF completes with them. -/
theorem exec_dec_result {fix : Bool} (hop : operationOf i s = decOp s.caps fix s.ilen.toNat s.ibuf)
    (hcaps : s.caps.legal) (hy : s.HasInput y) (hin : s.ilen.toNat ≤ s.caps.ibufBytes)
    (h : decodeFile fix y = .ok r) (hout : r.data.length ≤ s.caps.obufBytes) :
    ∃ t, exec i s = .next t ∧ ResultEnd s t r.data r.lcs r.size.n r.count :=
  exec_of_ok hcaps (hop.trans ((hy.decOp_eq hin fix).trans (congrArg _ (decResult_of_fits h hout))))

/-- A DEC whose input gives an error completes with that error. -/
theorem exec_dec_error {fix : Bool} (hop : operationOf i s = decOp s.caps fix s.ilen.toNat s.ibuf)
    (hy : s.HasInput y) (hin : s.ilen.toNat ≤ s.caps.ibufBytes) (h : decResult s.caps fix y = .err e) :
    ∃ t, exec i s = .next t ∧ ErrorEnd s t e.code :=
  exec_of_err (hop.trans ((hy.decOp_eq hin fix).trans (congrArg _ h)))

/-- A DEC of a file that passes every test and whose decoded length fits OBUF completes with the decoded bits of its
payload (spec/44_decoder.md R190). -/
theorem exec_dec_decoded {fix : Bool} {sz : CwSize} {count : Nat}
    (hop : operationOf i s = decOp s.caps fix s.ilen.toNat s.ibuf) (hcaps : s.caps.legal) (hy : s.HasInput y)
    (hin : s.ilen.toNat ≤ s.caps.ibufBytes) (h9 : 9 ≤ y.length) (hmagic : y.take 7 = magic)
    (hsz : headerN y = sz.toByte) (hlcs : headerLcs y ≤ sz.k) (hcount : 8 * (y.length - 9) = count * sz.n)
    (hout : (if count = 0 then 0 else (count * sz.k - (sz.k - headerLcs y) + 7) / 8) ≤ s.caps.obufBytes) :
    ∃ t, exec i s = .next t ∧
      t.olen.toNat = (if count = 0 then 0 else (count * sz.k - (sz.k - headerLcs y) + 7) / 8) ∧
      ResultEnd s t (pack (decodedBits sz fix (headerLcs y) (y.drop 9))) (headerLcs y) sz.n count := by
  have hlen := pack_decodedBits_length fix (headerLcs y) (payload := y.drop 9) (by rw [List.length_drop]; exact hcount)
  obtain ⟨t, ht, hend⟩ := exec_dec_result hop hcaps hy hin (decodeFile_of_count fix h9 hmagic hsz hlcs hcount)
    (hlen.trans_le hout)
  exact ⟨t, ht, hend.olen.trans hlen, hend⟩

/-- Settles O28: the header and the length pass every test, and the windows fix the result's length. -/
theorem decDecodesInput : Obligations.DecDecodesInput := by
  unfold Obligations.DecDecodesInput
  intro s n y sz lcs count outLen hcaps hy hin h9 hmagic h7 h8 hlcs hcount hout hfits
  obtain ⟨hlen, -⟩ := (s.hasInput_iff y).1 hy
  rw [← hlen] at h9 hcount
  have hn : headerN y = sz.toByte := by rw [headerN, List.getD_eq_getElem?_getD, h8]; rfl
  obtain rfl : headerLcs y = lcs := by
    have hk := sz.k_le
    rw [headerLcs, List.getD_eq_getElem?_getD, h7]
    exact Nat.mod_eq_of_lt (by omega)
  subst hout
  exact ⟨exec_dec_decoded (i := .decRaw n) rfl hcaps hy hin h9 hmagic hn hlcs hcount hfits,
    exec_dec_decoded (i := .decFix n) rfl hcaps hy hin h9 hmagic hn hlcs hcount hfits⟩

/-- Settles O29: each clause is one test of dec_op or of decode, the tests before it passed. -/
theorem decErrorsInOrder : Obligations.DecErrorsInOrder := by
  unfold Obligations.DecErrorsInOrder
  intro s n i hi
  obtain ⟨fix, hop⟩ := operationOf_dec hi s
  refine ⟨fun hlong => exec_of_err (hop.trans (decOp_tooLong hlong fix s.ibuf)), fun y hin hy => ?_⟩
  obtain ⟨hlen, -⟩ := (s.hasInput_iff y).1 hy
  have herr : ∀ e, decResult s.caps fix y = .err e → ∃ t, exec i s = .next t ∧ ErrorEnd s t e.code := fun _ =>
    exec_dec_error hop hy hin
  rw [← hlen]
  refine ⟨fun h => herr _ (decResult_of_error _ (decodeFile_malformed fix h)), fun h9 hmagic =>
    ⟨fun hn => herr _ (decResult_of_error _ (decodeFile_unsupported fix h9 hmagic hn)), fun sz hsz => ?_⟩⟩
  have htests := decodeFile_of_size fix h9 hmagic hsz
  refine ⟨fun hlcs => ?_, fun hlcs hmod => ?_, fun hlcs hpos hmod hout => ?_⟩
  · exact herr _ (decResult_of_error _ (htests.trans (if_pos hlcs)))
  · exact herr _ (decResult_of_error _ (htests.trans ((if_neg (Nat.not_lt.2 hlcs)).trans (if_pos hmod))))
  · have hcount := (Nat.div_mul_cancel (Nat.dvd_of_mod_eq_zero hmod)).symm
    have hsome : ¬8 * (y.length - 9) / sz.n = 0 := fun h0 => by rw [h0] at hcount; omega
    have hdata := pack_decodedBits_length fix (headerLcs y) (payload := y.drop 9)
      (by rw [List.length_drop]; exact hcount)
    refine herr _ (decResult_of_exceeds
      (decodeFile_of_count fix h9 hmagic ((CwSize.ofByte_eq_some _ _).1 hsz) hlcs hcount) ?_)
    exact hout.trans_eq (hdata.trans (if_neg hsome)).symm

end Sys2Proof.Machine
end

section
/-! SUPPORT. A command's outcome depends on its row and on its input only (spec/30_encoding.md R84;
spec/44_decoder.md R194). -/

namespace Sys2Proof.Machine

/-- A range that reads alike in two buffers is the same bytes, or stops at the same offset. -/
theorem Memory.readBytes_congr {m m' : Memory} {a len : Nat}
    (h : ∀ b, a ≤ b → b < a + len → m.read b = m'.read b) : m.readBytes a len = m'.readBytes a len := by
  induction len generalizing a with
  | zero => rfl
  | succ len ih =>
    have hrest := ih (a := a + 1) fun b h1 h2 => h b (by omega) (by omega)
    simp only [Memory.readBytes, h a (le_refl a) (by omega), hrest]

/-- Commands of one row are one operation: it ignores the fields they differ in, and ENC.INV reads none
(spec/30_encoding.md R84; spec/43_encoder.md R169). -/
theorem operationOf_eq_of_row {i j : Instr} (hi : i.wf = true) (hj : j.wf = true) (hrow : i.row = j.row) (s : State) :
    operationOf i s = operationOf j s := by
  cases i <;> cases j <;> simp [Instr.row, rowEncL1, rowEncL2, rowEncL3, rowDecRaw, rowDecFix, rowEncInv] at hrow
  case encInv.encInv n _ m _ =>
    have hn : supportedN n = false := by simpa [Instr.wf] using hi
    have hm : supportedN m = false := by simpa [Instr.wf] using hj
    exact (encOp_unsupported _ _ _ hn).trans (encOp_unsupported _ _ _ hm).symm
  all_goals rfl

/-- ENC looks at IBUF only through `IBUF[0..ILEN)` (spec/43_encoder.md R168). -/
theorem encOp_congr {ibuf ibuf' : Memory} {ilen : Nat} (h : ibuf.readBytes 0 ilen = ibuf'.readBytes 0 ilen)
    (caps : Capacities) (n : Byte) : encOp caps n ilen ibuf = encOp caps n ilen ibuf' := by
  rw [encOp, encOp, h]

/-- DEC looks at IBUF only through `IBUF[0..ILEN)` (spec/44_decoder.md R190). -/
theorem decOp_congr {ibuf ibuf' : Memory} {ilen : Nat} (h : ibuf.readBytes 0 ilen = ibuf'.readBytes 0 ilen)
    (caps : Capacities) (fix : Bool) : decOp caps fix ilen ibuf = decOp caps fix ilen ibuf' := by
  rw [decOp, decOp, h]

/-- An operation reads the capacities, ILEN and `IBUF[0..ILEN)` (spec/44_decoder.md R194). -/
theorem operationOf_congr (i : Instr) {s u : State} (hcaps : s.caps = u.caps) (hilen : s.ilen = u.ilen)
    (hread : ∀ a < s.ilen.toNat, s.ibuf.read a = u.ibuf.read a) : operationOf i s = operationOf i u := by
  have hinput : s.ibuf.readBytes 0 s.ilen.toNat = u.ibuf.readBytes 0 s.ilen.toNat :=
    Memory.readBytes_congr fun b _ hb => hread b (by omega)
  cases i with
  | encL1 | encL2 | encL3 | encInv => simp only [operationOf, ← hcaps, ← hilen, encOp_congr hinput]
  | decRaw | decFix => simp only [operationOf, ← hcaps, ← hilen, decOp_congr hinput]

/-- Settles O35: both commands commit one and the same result of their operation. -/
theorem commandDependsOnInputOnly : Obligations.CommandDependsOnInputOnly := by
  unfold Obligations.CommandDependsOnInputOnly
  intro i j s u t hi hj hrow hcaps hilen hread h
  have hop : operationOf i s = operationOf j u :=
    (operationOf_eq_of_row hi hj hrow s).trans (operationOf_congr j hcaps hilen hread)
  have hexec : exec j u = u.complete (operationOf i s) := hop ▸ exec_eq_complete j u
  rcases exec_next i s t h with ⟨out, lcs, sz, count, hr, rfl⟩ | ⟨e, hr, rfl⟩
  · refine ⟨u.endWithResult out lcs sz count, hexec.trans (congrArg _ hr), rfl, rfl, rfl, rfl, fun a ha => ?_⟩
    have hlt : a < out.length := ha.trans_le (Nat.mod_le ..)
    exact (u.obuf.read_writeBytes_below hlt).trans (s.obuf.read_writeBytes_below hlt).symm
  · refine ⟨u.endWithError e, hexec.trans (congrArg _ hr), rfl, rfl, rfl, rfl, fun a ha => ?_⟩
    exact absurd ha (Nat.not_lt_zero a)

end Sys2Proof.Machine
end

section
/-! SUPPORT. Decoding what the encoder made, as it was sent and with one flip in every window
(spec/44_decoder.md R188, R191, R192). -/

namespace Sys2Proof.Machine

variable {sz : CwSize} {x y : List Byte} {lcs : Nat} {d : BitStream} {ws chunks : List BitStream} {draw : List Nat}

/-- A file of whole words decodes to what its words decode to (spec/44_decoder.md R180). -/
theorem decodeFile_words (fix : Bool) (hlcs : lcs ≤ sz.k) (hws : ∀ w ∈ ws, w.length = sz.n)
    (h8 : 8 ∣ ws.length * sz.n) :
    decodeFile fix (fileHeader lcs sz ++ pack ws.flatten) =
      .ok { data := pack (unframe sz.k lcs (ws.map (cwdec sz fix))), lcs := lcs, size := sz, count := ws.length } := by
  have hbits := flatten_length_of_forall hws
  have hheader : headerLcs (fileHeader lcs sz ++ pack ws.flatten) = lcs := by
    have hk := sz.k_le
    exact Nat.mod_eq_of_lt (by omega)
  have hlen : 8 * ((fileHeader lcs sz ++ pack ws.flatten).length - 9) = ws.length * sz.n := by
    obtain ⟨q, hq⟩ := h8
    rw [List.length_append, show (fileHeader lcs sz).length = 9 from rfl, Nat.add_sub_cancel_left, pack_length, hbits,
      hq, Nat.mul_comm 8 q, ceilDiv_mul_self q 8 (by decide), Nat.mul_comm]
  have hpayload : decodedBits sz fix lcs (pack ws.flatten) = unframe sz.k lcs (ws.map (cwdec sz fix)) := by
    obtain ⟨-, -, hwhole⟩ := packUnpackLaws
    rw [decodedBits, (hwhole _).2 (hbits ▸ Nat.mod_eq_zero_of_dvd h8), windows_flatten sz.n_pos hws]
  rw [decodeFile_of_count fix (Nat.le_add_left 9 _) rfl rfl (hheader.trans_le hlcs) hlen, hheader, ← hpayload]
  rfl

/-- An encoded file is its header and the codewords of its chunks (spec/43_encoder.md R160). -/
theorem encodeFile_file (sz : CwSize) (x : List Byte) :
    (encodeFile sz x).file =
      fileHeader (encodeFile sz x).lcs sz ++ pack ((frame sz.k (unpack x)).1.map (cwenc sz)).flatten := by
  rw [← List.flatMap_def]
  rfl

/-- The codewords of an input fill whole bytes (spec/43_encoder.md R163). -/
theorem eight_dvd_chunks_mul_n (sz : CwSize) (x : List Byte) : 8 ∣ (frame sz.k (unpack x)).1.length * sz.n := by
  rw [frame_count, unpack_length]
  exact eight_dvd_encCount_mul_n sz x.length

/-- A codeword decodes to its chunk, with and without correction: its syndrome is 0 (spec/44_decoder.md R188). -/
theorem cwdec_cwenc (fix : Bool) (hd : d.length = sz.k) : cwdec sz fix (cwenc sz d) = d := by
  have hcorrect : correct sz fix (cwenc sz d) = cwenc sz d := by
    cases fix with
    | false => rfl
    | true => rw [correct_true_of_syndrome sz (syndrome_cwenc sz d), if_pos rfl]
  rw [cwdec, hcorrect, ppmGather_cwenc sz hd]

/-- A file of words that decode to the chunks of an input decodes to the input (spec/44_decoder.md R191). -/
theorem decodeFile_words_of_chunks {fix : Bool} (hws : ∀ w ∈ ws, w.length = sz.n)
    (hdec : ws.map (cwdec sz fix) = (frame sz.k (unpack x)).1) :
    decodeFile fix (fileHeader (encodeFile sz x).lcs sz ++ pack ws.flatten) =
      .ok { data := x, lcs := (encodeFile sz x).lcs, size := sz, count := (encodeFile sz x).count } := by
  have hlen : ws.length = (frame sz.k (unpack x)).1.length := by rw [← hdec, List.length_map]
  have hlcs : (encodeFile sz x).lcs ≤ sz.k := frame_lcs_le sz.k sz.k_pos (unpack x)
  rw [decodeFile_words fix hlcs hws (hlen ▸ eight_dvd_chunks_mul_n sz x), hdec, hlen]
  have hdata : pack (unframe sz.k (encodeFile sz x).lcs (frame sz.k (unpack x)).1) = x :=
    (congrArg pack (unframe_frame sz.k_pos (unpack x))).trans (pack_unpack x)
  rw [hdata]
  rfl

/-- Settles O51: every window is a codeword and decodes to its chunk. -/
theorem decodeInvertsEncode : Obligations.DecodeInvertsEncode := by
  unfold Obligations.DecodeInvertsEncode
  intro sz fix x
  rw [encodeFile_file]
  refine decodeFile_words_of_chunks (by simp) ?_
  rw [List.map_map]
  exact (List.map_congr_left fun d hd => cwdec_cwenc fix (length_of_mem_frame sz.k_pos _ d hd)).trans (List.map_id _)

/-- The codewords of chunks, each with the position drawn for it flipped (spec/45_corruptor_environment.md R200). -/
def flippedWords (sz : CwSize) (chunks : List BitStream) (draw : List Nat) : List BitStream :=
  List.zipWith flipBit (chunks.map (cwenc sz)) draw

theorem flippedWords_length (h : draw.length = chunks.length) :
    (flippedWords sz chunks draw).length = chunks.length := by
  simp [flippedWords, h]

/-- Word c is the codeword of chunk c with its one flip. -/
theorem flippedWords_getElem? {c p : Nat} (hd : chunks[c]? = some d) (hp : draw[c]? = some p) :
    (flippedWords sz chunks draw)[c]? = some (flipBit (cwenc sz d) p) := by
  simp [flippedWords, List.getElem?_zipWith, hd, hp]

/-- A flip keeps the length of a codeword. -/
theorem length_of_mem_flippedWords : ∀ w ∈ flippedWords sz chunks draw, w.length = sz.n := by
  intro w hw
  obtain ⟨c, hc⟩ := List.mem_iff_getElem?.1 hw
  obtain ⟨v, p, hv, -, rfl⟩ := List.getElem?_zipWith_eq_some.1 hc
  obtain ⟨d, -, rfl⟩ := List.mem_map.1 (List.mem_of_getElem? hv)
  rw [flipBit_length, cwenc_length]

/-- What the channel makes of an encoded file (spec/45_corruptor_environment.md R200). -/
theorem corrupt_encodeFile (h : corrupt (encodeFile sz x).file draw = some y) :
    draw.length = (frame sz.k (unpack x)).1.length ∧ (∀ p ∈ draw, p < sz.n) ∧
      y = fileHeader (encodeFile sz x).lcs sz ++ pack (flippedWords sz (frame sz.k (unpack x)).1 draw).flatten := by
  have hsz : CwSize.ofByte (headerN (encodeFile sz x).file) = some sz := (CwSize.ofByte_eq_some _ sz).2 rfl
  have hwindows := congrArg List.length (windows_encodeFile sz x)
  rw [windows_length, unpack_length, List.length_drop, List.length_map] at hwindows
  simp only [corrupt, hsz, Option.ite_none_right_eq_some, drawFits, Bool.and_eq_true, beq_iff_eq, List.all_eq_true,
    decide_eq_true_eq, Option.some.injEq] at h
  obtain ⟨⟨⟨-, hlen⟩, hdraw⟩, rfl⟩ := h
  replace hlen := hlen.trans hwindows
  refine ⟨hlen, hdraw, ?_⟩
  rw [headerBytes, unpack_payload, payloadBits, List.flatMap_def,
    flipWindows_flatten (by simp) (by simpa using hlen) hdraw]
  rfl

/-- With correction every flipped codeword decodes to its chunk (spec/44_decoder.md R192). -/
theorem map_cwdec_true_flippedWords (hchunks : ∀ d ∈ chunks, d.length = sz.k) (hlen : draw.length = chunks.length)
    (hdraw : ∀ p ∈ draw, p < sz.n) : (flippedWords sz chunks draw).map (cwdec sz true) = chunks := by
  refine List.ext_getElem? fun c => ?_
  rw [List.getElem?_map]
  rcases Nat.lt_or_ge c chunks.length with hc | hc
  · have hd := List.getElem?_eq_getElem hc
    have hp := List.getElem?_eq_getElem (hlen ▸ hc : c < draw.length)
    rw [flippedWords_getElem? hd hp, hd, Option.map_some, cwdec_true_flipBit_cwenc
      (hchunks _ (List.mem_of_getElem? hd)) (hdraw _ (List.mem_of_getElem? hp))]
  · rw [List.getElem?_eq_none hc, List.getElem?_eq_none (by rw [flippedWords_length hlen]; exact hc), Option.map_none]

/-- Without correction a flip inverts the one bit of the chunk that lies at the flipped position, if it is a data
position (spec/41_syndrome_parity_corrector.md R130). -/
theorem cwdec_false_flipBit_cwenc_getD (hd : d.length = sz.k) {i p : Nat} (hi : i < sz.k) :
    (cwdec sz false (flipBit (cwenc sz d) p)).getD i false =
      (d.getD i false ^^ decide ((dataPositions sz)[i]? = some p)) := by
  obtain ⟨q, hq⟩ : ∃ q, (dataPositions sz)[i]? = some q :=
    ⟨_, List.getElem?_eq_getElem ((dataPositions_length sz).symm ▸ hi)⟩
  have hlt : q < (cwenc sz d).length := by simpa using dataPositions_lt sz (List.mem_of_getElem? hq)
  have hgather : ∀ w, (ppmGather sz w).getD i false = w.getD q false := fun w => by
    rw [List.getD_eq_getElem?_getD, ppmGather_getElem? sz w hq, Option.getD_some]
  rw [cwdec, correct_false, hgather, flipBit_getD p hlt, ← hgather, ppmGather_cwenc sz hd]
  simp only [hq, Option.some_inj, eq_comm]

/-- Without correction bit `c * k + i` of the decoded stream is inverted exactly when the flip in word c hit data
position i (spec/44_decoder.md R192). -/
theorem flatten_cwdec_false_getD (hchunks : ∀ d ∈ chunks, d.length = sz.k) {c i p : Nat} (hc : c < chunks.length)
    (hp : draw[c]? = some p) (hi : i < sz.k) :
    ((flippedWords sz chunks draw).map (cwdec sz false)).flatten.getD (c * sz.k + i) false =
      (chunks.flatten.getD (c * sz.k + i) false ^^ decide ((dataPositions sz)[i]? = some p)) := by
  have hd := List.getElem?_eq_getElem hc
  have hword : ((flippedWords sz chunks draw).map (cwdec sz false))[c]? =
      some (cwdec sz false (flipBit (cwenc sz chunks[c]) p)) := by
    rw [List.getElem?_map, flippedWords_getElem? hd hp, Option.map_some]
  rw [flatten_getD_of_forall (by simp) hword hi, flatten_getD_of_forall hchunks hd hi,
    cwdec_false_flipBit_cwenc_getD (hchunks _ (List.mem_of_getElem? hd)) hi]

/-- A stream of whole bytes packs to the bytes it is the unpacking of (spec/42_chunk_framer_and_packing.md R142). -/
theorem pack_eq_iff {b : BitStream} (hb : b.length = 8 * x.length) : pack b = x ↔ b = unpack x := by
  constructor
  · rintro rfl
    obtain ⟨-, -, hwhole⟩ := packUnpackLaws
    exact ((hwhole b).2 (by omega)).symm
  · rintro rfl
    exact pack_unpack x

/-- Two streams have their first L bits in common. -/
theorem take_eq_take_iff_getD {a b : BitStream} {L : Nat} (ha : L ≤ a.length) (hb : L ≤ b.length) :
    a.take L = b.take L ↔ ∀ m < L, a.getD m false = b.getD m false := by
  have hbit : ∀ (w : BitStream), ∀ m < L, (w.take L).getD m false = w.getD m false := fun w m hm => by
    rw [List.getD_eq_getElem?_getD, List.getElem?_take_of_lt hm, List.getD_eq_getElem?_getD]
  have hlen : ∀ {w : BitStream}, L ≤ w.length → (w.take L).length = L := fun hw => by
    rw [List.length_take, Nat.min_eq_left hw]
  constructor
  · intro h m hm
    rw [← hbit a m hm, h, hbit b m hm]
  · refine fun h => bitStream_ext ((hlen ha).trans (hlen hb).symm) fun m hm => ?_
    rw [hlen ha] at hm
    rw [hbit a m hm, hbit b m hm, h m hm]

/-- Without correction the decoded stream differs from the chunks of an input exactly when some flip hit a data bit
that is no padding (spec/44_decoder.md R192; spec/90_conflicts.md C4). -/
theorem exists_getD_ne_iff {L : Nat} (hchunks : ∀ d ∈ chunks, d.length = sz.k) (hlen : draw.length = chunks.length)
    (hL : L ≤ chunks.length * sz.k) :
    (∃ m < L, ((flippedWords sz chunks draw).map (cwdec sz false)).flatten.getD m false ≠
        chunks.flatten.getD m false) ↔
      ∃ c i p : Nat, draw[c]? = some p ∧ (dataPositions sz)[i]? = some p ∧ c * sz.k + i < L := by
  have hne : ∀ {c i p : Nat}, draw[c]? = some p → i < sz.k →
      (((flippedWords sz chunks draw).map (cwdec sz false)).flatten.getD (c * sz.k + i) false ≠
        chunks.flatten.getD (c * sz.k + i) false ↔ (dataPositions sz)[i]? = some p) := fun {c i p} hp hi => by
    rw [flatten_cwdec_false_getD hchunks (hlen ▸ (List.getElem?_eq_some_iff.1 hp).1) hp hi]
    by_cases hdata : (dataPositions sz)[i]? = some p <;> simp [hdata]
  constructor
  · rintro ⟨m, hm, hdiff⟩
    have hi : m % sz.k < sz.k := Nat.mod_lt m sz.k_pos
    have hc : m / sz.k < draw.length := hlen ▸ Nat.div_lt_of_lt_mul (Nat.mul_comm .. ▸ hm.trans_le hL)
    rw [← Nat.div_add_mod' m sz.k] at hm hdiff
    exact ⟨_, _, _, List.getElem?_eq_getElem hc, (hne (List.getElem?_eq_getElem hc) hi).1 hdiff, hm⟩
  · rintro ⟨c, i, p, hp, hdata, hm⟩
    have hi : i < sz.k := dataPositions_length sz ▸ (List.getElem?_eq_some_iff.1 hdata).1
    exact ⟨_, hm, (hne hp hi).2 hdata⟩

/-- Without correction the trimmed stream has as many bytes as the input, and other bytes exactly when some flip hit a
data bit that is no padding (spec/44_decoder.md R192; spec/90_conflicts.md C4). -/
theorem pack_take_flippedWords (hchunks : ∀ d ∈ chunks, d.length = sz.k) (hlen : draw.length = chunks.length)
    (hcover : 8 * x.length ≤ chunks.length * sz.k) (hinput : chunks.flatten.take (8 * x.length) = unpack x)
    {out : List Byte}
    (hout : out = pack (((flippedWords sz chunks draw).map (cwdec sz false)).flatten.take (8 * x.length))) :
    out.length = x.length ∧
      (out ≠ x ↔ ∃ c i p : Nat,
        draw[c]? = some p ∧ (dataPositions sz)[i]? = some p ∧ c * sz.k + i < 8 * x.length) := by
  have hflat : 8 * x.length ≤ ((flippedWords sz chunks draw).map (cwdec sz false)).flatten.length := by
    rwa [flatten_length_of_forall (n := sz.k) (by simp), List.length_map, flippedWords_length hlen]
  have hbits := List.length_take_of_le hflat
  rw [hout]
  constructor
  · rw [pack_length, hbits, Nat.mul_comm, ceilDiv_mul_self _ _ (by decide)]
  · rw [ne_eq, pack_eq_iff hbits, ← hinput,
      take_eq_take_iff_getD hflat (hcover.trans_eq (flatten_length_of_forall hchunks).symm),
      ← exists_getD_ne_iff hchunks hlen hcover]
    simp only [not_forall, exists_prop, ne_eq]

/-- The chunks of an input hold all of its bits (spec/42_chunk_framer_and_packing.md R143). -/
theorem eight_mul_length_le_chunks (sz : CwSize) (x : List Byte) :
    8 * x.length ≤ (frame sz.k (unpack x)).1.length * sz.k := by
  rw [frame_count, unpack_length]
  exact le_ceilDiv_mul _ _ sz.k_pos

/-- As many chunks as an input has are trimmed to the input's bits (spec/42_chunk_framer_and_packing.md R146). -/
theorem unframe_lcs_eq_take (h : chunks.length = (frame sz.k (unpack x)).1.length) :
    unframe sz.k (encodeFile sz x).lcs chunks = chunks.flatten.take (8 * x.length) :=
  unpack_length x ▸ unframe_eq_take sz.k_pos (unpack x) h

/-- Settles O53: a corrected word gives its chunk, and without correction a flip inverts at most the one bit of the
stream that lies at the flipped position. -/
theorem singleFlipResilience : Obligations.SingleFlipResilience := by
  unfold Obligations.SingleFlipResilience
  intro sz x y draw h
  obtain ⟨hlen, hdraw, rfl⟩ := corrupt_encodeFile h
  have hchunks := length_of_mem_frame sz.k_pos (unpack x)
  have hwords : (flippedWords sz (frame sz.k (unpack x)).1 draw).length = (frame sz.k (unpack x)).1.length :=
    flippedWords_length hlen
  have hlcs : (encodeFile sz x).lcs ≤ sz.k := frame_lcs_le sz.k sz.k_pos (unpack x)
  refine ⟨decodeFile_words_of_chunks length_of_mem_flippedWords (map_cwdec_true_flippedWords hchunks hlen hdraw), _,
    decodeFile_words false hlcs length_of_mem_flippedWords (hwords ▸ eight_dvd_chunks_mul_n sz x), ?_⟩
  exact pack_take_flippedWords hchunks hlen (eight_mul_length_le_chunks sz x)
    ((unframe_lcs_eq_take rfl).symm.trans (unframe_frame sz.k_pos (unpack x)))
    (congrArg pack (unframe_lcs_eq_take ((List.length_map _).trans hwords)))

end Sys2Proof.Machine
end

section
/-! SUPPORT. ENC and DEC in the block: what ENC leaves in OBUF decodes to ENC's input (spec/44_decoder.md R191). -/

namespace Sys2Proof.Machine

variable {s t u : State} {i j : Instr} {sz : CwSize} {x : List Byte}

/-- A supported level of ENC is enc_op at its size (spec/43_encoder.md R168). -/
theorem operationOf_encLevel {f : Bool} (hi : i = .encL1 f ∨ i = .encL2 f ∨ i = .encL3 f) (s : State) :
    ∃ sz : CwSize, operationOf i s = encOp s.caps sz.toByte s.ilen.toNat s.ibuf := by
  rcases hi with rfl | rfl | rfl
  · exact ⟨.n4, rfl⟩
  · exact ⟨.n8, rfl⟩
  · exact ⟨.n16, rfl⟩

/-- No error has the code of success (spec/60_exceptions.md R211). -/
theorem ErrorCode.code_ne_zero (e : ErrorCode) : e.code ≠ 0 := by cases e <;> decide

/-- Different sizes are different bytes. -/
theorem CwSize.toByte_injective : Function.Injective CwSize.toByte := fun sz sz' h =>
  Option.some.inj (((CwSize.ofByte_eq_some _ sz).2 rfl).symm.trans ((CwSize.ofByte_eq_some _ sz').2 h))

/-- A result of enc_op is the encoded file of the bytes read (spec/43_encoder.md R168). -/
theorem encOp_result {caps : Capacities} {ilen lcs count : Nat} {ibuf : Memory} {out : List Byte} {sz' : CwSize}
    (h : encOp caps sz.toByte ilen ibuf = .ok (.ok out lcs sz' count)) :
    ∃ x, ibuf.readBytes 0 ilen = .ok x ∧ OpResult.ok out lcs sz' count = encResult sz x := by
  rcases encOp_cases caps sz.toByte ilen ibuf with ⟨_, -, hr⟩ | ⟨_, _, -, -, hr⟩ | ⟨sz₁, x, ht, hx, hr⟩
  · simp [hr] at h
  · simp [hr] at h
  · obtain ⟨hsz, -⟩ := (encTests_ok ..).1 ht
    obtain rfl := CwSize.toByte_injective hsz
    exact ⟨x, hx, Except.ok.inj (h.symm.trans hr)⟩

/-- An ENC that ends without error has read its input and leaves the input's encoded file (spec/43_encoder.md R168). -/
theorem exec_enc_encoded (hcaps : s.caps.legal) (hop : operationOf i s = encOp s.caps sz.toByte s.ilen.toNat s.ibuf)
    (h : exec i s = .next t) (herr : t.err = 0) :
    ∃ x, s.HasInput x ∧
      ResultEnd s t (encodeFile sz x).file (encodeFile sz x).lcs sz.n (encodeFile sz x).count := by
  rcases exec_next_end hcaps h with ⟨out, lcs, sz', count, hr, hend⟩ | ⟨e, -, hend⟩
  · obtain ⟨x, hx, hres⟩ := encOp_result (hop.symm.trans hr)
    cases hres
    exact ⟨x, hx, hend⟩
  · exact absurd (hend.err.symm.trans herr) e.code_ne_zero

/-- A result moved to IBUF is the input there. -/
theorem ResultEnd.hasInput {out : List Byte} {lcs n count : Nat} (h : ResultEnd s t out lcs n count)
    (hilen : u.ilen = t.olen) (hmoved : ∀ a < t.olen.toNat, u.ibuf.read a = t.obuf.read a) : u.HasInput out := by
  rw [State.hasInput_iff, hilen, h.olen]
  exact ⟨rfl, fun a ha => (hmoved a (ha.trans_eq h.olen.symm)).trans (h.stored a ha)⟩

/-- Two results with one pair of header fields leave one value in FRAME. -/
theorem ResultEnd.frame_eq {s' t' : State} {out out' : List Byte} {lcs n count count' : Nat}
    (h : ResultEnd s t out lcs n count) (h' : ResultEnd s' t' out' lcs n count') : t'.frame = t.frame := by
  have hlcs : t'.frame.lcs = t.frame.lcs := BitVec.eq_of_toNat_eq (h'.lcs.trans h.lcs.symm)
  have hn : t'.frame.n = t.frame.n := BitVec.eq_of_toNat_eq (h'.n.trans h.n.symm)
  calc t'.frame = ⟨t'.frame.lcs, t'.frame.n⟩ := rfl
    _ = ⟨t.frame.lcs, t.frame.n⟩ := by rw [hlcs, hn]
    _ = t.frame := rfl

/-- Settles O52: the file ENC leaves is DEC's input, and it decodes to ENC's. -/
theorem blockRoundTrip : Obligations.BlockRoundTrip := by
  unfold Obligations.BlockRoundTrip
  intro s t u i j f n hscaps hucaps hi h herr hilen hmoved hin hout hj
  obtain ⟨sz, henc⟩ := operationOf_encLevel hi s
  obtain ⟨fix, hdec⟩ := operationOf_dec hj u
  obtain ⟨x, hx, hfile⟩ := exec_enc_encoded hscaps henc h herr
  obtain ⟨hlen, hread⟩ := (s.hasInput_iff x).1 hx
  obtain ⟨v, hv, hend⟩ := exec_dec_result hdec hucaps (hfile.hasInput hilen hmoved) hin
    (decodeInvertsEncode sz fix x) (hlen.trans_le hout)
  refine ⟨v, hv, hend.err, BitVec.eq_of_toNat_eq (hend.olen.trans hlen), hfile.frame_eq hend,
    BitVec.eq_of_toNat_eq (hend.nchunk.trans hfile.nchunk.symm), fun a ha => ?_⟩
  exact (hend.stored a (ha.trans_eq hlen.symm)).trans (hread a ha).symm

end Sys2Proof.Machine
end

section
/-! SUPPORT. The Corruptor on any file it is defined on: header, length and windows of its output
(spec/45_corruptor_environment.md R200, R201). -/

namespace Sys2Proof.Machine

variable {n : Nat} {p : BitStream} {draw : List Nat} {y z : List Byte}

/-- Every window is full (spec/42_chunk_framer_and_packing.md R148). -/
theorem length_of_mem_windows (n : Nat) (p : BitStream) : ∀ w ∈ windows n p, w.length = n :=
  length_of_mem_groups (Nat.div_mul_le_self p.length n)

/-- A payload of whole windows is its windows laid end to end (spec/42_chunk_framer_and_packing.md R148). -/
theorem flatten_windows (h : n ∣ p.length) : (windows n p).flatten = p := by
  rw [windows, groups_flatten, Nat.div_mul_cancel h, List.take_length]

@[simp] theorem flipWindows_length (n c : Nat) (draw : List Nat) (p : BitStream) :
    (flipWindows n c draw p).length = p.length := by
  induction draw generalizing c p with
  | nil => rfl
  | cons d draw ih => rw [flipWindows, ih, flipBit_length]

/-- In a payload of whole windows each window has the position drawn for it flipped
(spec/45_corruptor_environment.md R200). -/
theorem windows_flipWindows (hn : 0 < n) (hp : n ∣ p.length) (hlen : draw.length = (windows n p).length)
    (hdraw : ∀ d ∈ draw, d < n) :
    windows n (flipWindows n 0 draw p) = List.zipWith flipBit (windows n p) draw := by
  have hfull := length_of_mem_windows n p
  have hflip : ∀ w ∈ List.zipWith flipBit (windows n p) draw, w.length = n := by
    intro w hw
    obtain ⟨c, hc⟩ := List.mem_iff_getElem?.1 hw
    obtain ⟨v, d, hv, -, rfl⟩ := List.getElem?_zipWith_eq_some.1 hc
    rw [flipBit_length, hfull v (List.mem_of_getElem? hv)]
  calc windows n (flipWindows n 0 draw p)
      = windows n (flipWindows n 0 draw (windows n p).flatten) := by rw [flatten_windows hp]
    _ = windows n (List.zipWith flipBit (windows n p) draw).flatten := by rw [flipWindows_flatten hfull hlen hdraw]
    _ = List.zipWith flipBit (windows n p) draw := windows_flatten hn hflip

/-- The operand conditions of `corrupt`: a whole header, a payload of whole windows, and one position below n drawn for
each window (spec/45_corruptor_environment.md R200). -/
theorem drawFits_iff {sz : CwSize} : drawFits y draw sz = true ↔
    9 ≤ y.length ∧ sz.n ∣ (unpack (y.drop 9)).length ∧
      draw.length = (windows sz.n (unpack (y.drop 9))).length ∧ ∀ d ∈ draw, d < sz.n := by
  simp only [drawFits, Bool.and_eq_true, beq_iff_eq, List.all_eq_true, decide_eq_true_eq, and_assoc,
    windows_length, unpack_length, List.length_drop, Nat.dvd_iff_mod_eq_zero]
  exact Iff.rfl

/-- Where `corrupt` is defined, and its output there (spec/45_corruptor_environment.md R200). -/
theorem corrupt_eq_some_iff : corrupt y draw = some z ↔
    ∃ sz, CwSize.ofByte (headerN y) = some sz ∧ drawFits y draw sz = true ∧
      y.take 9 ++ pack (flipWindows sz.n 0 draw (unpack (y.drop 9))) = z := by
  cases hsz : CwSize.ofByte (headerN y) <;> simp [corrupt, hsz, headerBytes]

/-- Packing a payload the channel has flipped bits of loses none of them (spec/42_chunk_framer_and_packing.md R142). -/
theorem unpack_pack_flipWindows (n c : Nat) (draw : List Nat) (x : List Byte) :
    unpack (pack (flipWindows n c draw (unpack x))) = flipWindows n c draw (unpack x) := by
  obtain ⟨-, -, hwhole⟩ := packUnpackLaws
  exact (hwhole _).2 (by rw [flipWindows_length, unpack_length, Nat.mul_mod_right])

/-- Flips keep the number of payload bytes (spec/45_corruptor_environment.md R201). -/
theorem pack_flipWindows_length (n c : Nat) (draw : List Nat) (x : List Byte) :
    (pack (flipWindows n c draw (unpack x))).length = x.length := by
  rw [pack_length, flipWindows_length, unpack_length, Nat.mul_comm, ceilDiv_mul_self _ _ (by decide)]

/-- Settles O54: the header is copied, and the payload's windows are flipped each at the position drawn for it. -/
theorem corruptorGuarantees : Obligations.CorruptorGuarantees := by
  unfold Obligations.CorruptorGuarantees
  intro y z draw h
  obtain ⟨sz, hsz, hfits, rfl⟩ := corrupt_eq_some_iff.1 h
  obtain ⟨h9, hwhole, hlen, hdraw⟩ := drawFits_iff.1 hfits
  have hheader : (y.take 9).length = 9 := List.length_take_of_le h9
  refine ⟨?_, List.take_left' hheader, sz, hsz, hlen, fun c p hp => ⟨hdraw p (List.mem_of_getElem? hp), ?_⟩⟩
  · rw [List.length_append, pack_flipWindows_length, hheader, List.length_drop, Nat.add_sub_cancel' h9]
  · rw [List.drop_left' hheader, unpack_pack_flipWindows, windows_flipWindows sz.n_pos hwhole hlen hdraw,
      List.getElem?_zipWith, hp]
    cases (windows sz.n (unpack (y.drop 9)))[c]? <;> rfl

end Sys2Proof.Machine
end

section
/-! SUPPORT. When DONE and ERR change, how an operation ends with an error, and that repeating it changes nothing
(spec/60_exceptions.md R218, R220, R222, R224). -/

namespace Sys2Proof.Machine

variable {s t : State} {i : Instr} {n : Byte} {e : ErrorCode}

/-! ### DONE and ERR (spec/10_state.md R27) -/

/-- A host access to an IDLE block is an accepted START or leaves DONE and ERR (spec/10_state.md R37, R40). -/
theorem hostIdle_starts_or_keeps_status {a : HostAccess} (h : hostIdle a s = .next t) :
    (∃ v, a = .writeReg 0 v ∧ v.getLsbD 0 = true ∧ t.phase = .busy) ∨ (t.done = s.done ∧ t.err = s.err) := by
  rcases hostIdle_next a s t h with
    ⟨v, ha, hv, -, rfl⟩ | ⟨_, -, rfl⟩ | ⟨_, -, rfl⟩ | ⟨_, _, -, -, rfl⟩ | rfl | ⟨_, rfl⟩
  · exact .inl ⟨v, ha, hv, rfl⟩
  all_goals exact .inr ⟨rfl, rfl⟩

/-- Settles O20, by the kinds of turn an IDLE block can take. -/
theorem indicationClearedOnlyByStartOrReset : Obligations.IndicationClearedOnlyByStartOrReset := by
  unfold Obligations.IndicationClearedOnlyByStartOrReset
  intro s t hidle h hne
  have hkeeps : ¬(t.done = s.done ∧ t.err = s.err) := fun ⟨hd, he⟩ => hne.elim (· hd) (· he)
  rcases step_next s t h with
    ⟨rest, -, ⟨hbusy, -⟩ | ⟨-, rfl⟩⟩ | ⟨a, rest, he, ⟨-, ha⟩ | ⟨hbusy, -⟩⟩ | ⟨rest, he, -⟩
  · simp [hidle] at hbusy
  · exact absurd ⟨rfl, rfl⟩ hkeeps
  · rcases hostIdle_starts_or_keeps_status ha with ⟨v, rfl, hv, hp⟩ | hkept
    · exact .inl ⟨v, rest, he, hv, hp⟩
    · exact absurd hkept hkeeps
  · simp [hidle] at hbusy
  · exact .inr ⟨rest, he⟩

/-! ### Ending with an error (spec/60_exceptions.md R220, R224) -/

/-- A command that completes with a code other than 0 has ended with its operation's error. -/
theorem exec_next_error (h : exec i s = .next t) (herr : t.err ≠ 0) :
    ∃ e, operationOf i s = .ok (.err e) ∧ t = s.endWithError e := by
  rcases exec_next i s t h with ⟨_, _, _, _, -, rfl⟩ | hend
  · exact absurd rfl herr
  · exact hend

/-- Settles O31: a code other than 0 is left by endWithError only. -/
theorem errorEndEffect : Obligations.ErrorEndEffect := by
  unfold Obligations.ErrorEndEffect
  intro i s t h herr
  obtain ⟨e, -, rfl⟩ := exec_next_error h herr
  rfl

/-- Codes above 4 are never produced (spec/60_exceptions.md R211). -/
theorem exec_next_err_le (h : exec i s = .next t) : t.err.toNat ≤ 4 := by
  rcases exec_next i s t h with ⟨_, _, _, _, -, rfl⟩ | ⟨e, -, rfl⟩
  · exact Nat.zero_le 4
  · exact e.code_le

/-- At a supported size ENC's one error is CapacityExceeded (spec/43_encoder.md R168). -/
theorem encOp_toByte_error {caps : Capacities} {sz : CwSize} {ilen : Nat} {ibuf : Memory}
    (h : encOp caps sz.toByte ilen ibuf = .ok (.err e)) : e = .capacityExceeded := by
  rcases encOp_cases caps sz.toByte ilen ibuf with ⟨e', htests, hr⟩ | ⟨_, _, -, -, hr⟩ | ⟨_, _, -, -, hr⟩
  · obtain rfl : e' = e := by simpa [hr] using h
    rw [encTests_toByte] at htests
    split at htests <;> cases htests
    rfl
  · simp [hr] at h
  · simp [hr, encResult] at h

/-- There is a state in which the command `i` ends with the error `e`. -/
def EndsWith (i : Instr) (e : ErrorCode) : Prop := ∃ s t, exec i s = .next t ∧ t.err = e.code

/-- A state whose operation gives the error is such a state. -/
theorem EndsWith.of_operationOf (h : operationOf i s = .ok (.err e)) : EndsWith i e :=
  let ⟨t, ht, hend⟩ := exec_of_err h
  ⟨s, t, ht, hend.err⟩

/-- The block after reset with an ILEN above every legal capacity. -/
def State.overlong : State := { State.reset with ilen := 0xFFFFFFFF }

theorem State.overlong_ilen : State.overlong.caps.ibufBytes < State.overlong.ilen.toNat := by decide

/-- The block after reset with the bytes `y` loaded as its input. -/
def State.loaded (y : List Byte) : State :=
  { State.reset with ilen := BitVec.ofNat 32 y.length, ibuf := Memory.writeBytes [] 0 y }

theorem State.loaded_ilen {y : List Byte} (h : y.length ≤ Config.maxCapacity) :
    (State.loaded y).ilen.toNat = y.length :=
  Nat.mod_eq_of_lt (by simp only [Config.maxCapacity] at h; omega)

theorem State.loaded_hasInput {y : List Byte} (h : y.length ≤ Config.maxCapacity) : (State.loaded y).HasInput y := by
  rw [State.hasInput_iff, State.loaded_ilen h]
  exact ⟨rfl, fun a ha => Memory.read_writeBytes_below [] ha⟩

/-- DEC ends with the error that decoding its loaded input gives. -/
theorem EndsWith.of_decodeFile {y : List Byte} (hi : i = .decRaw n ∨ i = .decFix n)
    (hy : y.length ≤ Config.maxCapacity) (h : ∀ fix, decodeFile fix y = .error e) : EndsWith i e := by
  obtain ⟨fix, hop⟩ := operationOf_dec hi (State.loaded y)
  refine .of_operationOf (hop.trans (((State.loaded_hasInput hy).decOp_eq ?_ fix).trans ?_))
  · exact (State.loaded_ilen hy).trans_le hy
  · rw [decResult_of_error _ (h fix)]

/-- ENC at a supported size ends without error or with CapacityExceeded, and some input is too long for it. -/
theorem encLevel_errors {f : Bool} (hi : i = .encL1 f ∨ i = .encL2 f ∨ i = .encL3 f) :
    (∀ s t, exec i s = .next t → t.err = 0 ∨ t.err = 4) ∧ EndsWith i .capacityExceeded := by
  refine ⟨fun s t h => or_iff_not_imp_left.2 fun herr => ?_, ?_⟩
  · obtain ⟨sz, hop⟩ := operationOf_encLevel hi s
    obtain ⟨e, he, rfl⟩ := exec_next_error h herr
    obtain rfl := encOp_toByte_error (hop.symm.trans he)
    rfl
  · obtain ⟨sz, hop⟩ := operationOf_encLevel hi State.overlong
    obtain ⟨t, ht, hend⟩ := exec_enc_capacityExceeded hop (.inl State.overlong_ilen)
    exact ⟨_, t, ht, hend.err⟩

/-- DEC ends with each of the four errors: for a header of size 0, an empty file, one byte of payload at n = 16, and
an input longer than IBUF. -/
theorem dec_endsWith (hi : i = .decRaw n ∨ i = .decFix n) (e : ErrorCode) : EndsWith i e := by
  cases e with
  | invalidChunkSize =>
    exact .of_decodeFile (y := magic ++ [0, 0]) hi (by decide) fun fix =>
      decodeFile_unsupported fix (by decide) (by decide) (by decide)
  | malformedHeader =>
    exact .of_decodeFile (y := []) hi (by decide) fun fix => decodeFile_malformed fix (.inl (by decide))
  | corruptedOrTruncatedFile =>
    exact .of_decodeFile (y := fileHeader 0 .n16 ++ [0]) hi (by decide) fun fix =>
      decodeFile_of_size (sz := .n16) fix (by decide) (by decide) (by decide)
  | capacityExceeded =>
    obtain ⟨fix, hop⟩ := operationOf_dec hi State.overlong
    exact .of_operationOf (hop.trans (decOp_tooLong State.overlong_ilen fix _))

/-- Settles O32, row by row of the table: ENC at a supported size, ENC.INV, DEC. -/
theorem whichCommandWhichError : Obligations.WhichCommandWhichError := by
  unfold Obligations.WhichCommandWhichError
  intro fix n
  refine ⟨fun i hi => encLevel_errors hi, fun hn s => ?_, fun i hi => ?_⟩
  · obtain ⟨t, ht, hend⟩ := exec_of_err (i := .encInv n fix) (s := s) (encOp_unsupported _ _ _ hn)
    exact ⟨t, ht, hend.err⟩
  · exact ⟨fun s t => exec_next_err_le, dec_endsWith hi .invalidChunkSize, dec_endsWith hi .malformedHeader,
      dec_endsWith hi .corruptedOrTruncatedFile, dec_endsWith hi .capacityExceeded⟩

/-! ### The bounds of the result registers (spec/60_exceptions.md R218) -/

/-- Legal capacities bound the count of a result by 2^29 (spec/60_exceptions.md R218). -/
theorem ResultFits.count_bounds {caps : Capacities} {out : List Byte} {lcs count : Nat} {sz : CwSize}
    (hcaps : caps.legal) (h : ResultFits caps out lcs sz count) :
    count ≤ 8 * max caps.ibufBytes caps.obufBytes / 4 ∧ count ≤ 2 ^ 29 := by
  obtain ⟨⟨-, hibuf⟩, -, hobuf⟩ := hcaps
  have hcount := h.count_le
  simp only [Config.maxCapacity] at hibuf hobuf
  omega

/-- Settles O34: a result within the bounds is not wrapped, and an error leaves 0. -/
theorem resultsFitRegisters : Obligations.ResultsFitRegisters := by
  unfold Obligations.ResultsFitRegisters
  intro i s t hcaps h
  rcases exec_next_end hcaps h with ⟨out, lcs, sz, count, hr, hend⟩ | ⟨e, hr, hend⟩
  · have hfit := operationOf_fits hr
    obtain ⟨hcount, hmax⟩ := hfit.count_bounds hcaps
    rw [hend.olen, hend.nchunk]
    exact ⟨hfit.length_le, hcount, hmax, .inl ⟨out, lcs, sz, count, hr, hend⟩⟩
  · rw [hend.olen, hend.nchunk]
    exact ⟨Nat.zero_le _, Nat.zero_le _, Nat.zero_le _, .inr ⟨e, hr, hend⟩⟩

/-! ### Repeating an operation (spec/60_exceptions.md R222) -/

/-- Writing a range leaves what a repeated write below it would change unchanged. -/
theorem Memory.write_writeBytes_of_settled {a : Nat} {v : Byte} (out : List Byte) :
    ∀ (m : Memory) (b : Nat), a < b → m.write a v = m → (m.writeBytes b out).write a v = m.writeBytes b out := by
  induction out with
  | nil => exact fun m b _ h => h
  | cons w rest ih =>
    exact fun m b hab h => ih (m.write b w) (b + 1) (by omega) (m.write_settled_above a b v w hab h)

/-- Writing again the range that was just written changes nothing. -/
theorem Memory.writeBytes_settled (out : List Byte) :
    ∀ (m : Memory) (a : Nat), (m.writeBytes a out).writeBytes a out = m.writeBytes a out := by
  induction out with
  | nil => exact fun m a => rfl
  | cons v rest ih =>
    intro m a
    have hfirst := Memory.write_writeBytes_of_settled rest (m.write a v) (a + 1) (by omega) (m.write_settled a v)
    simp only [Memory.writeBytes, hfirst, ih]

/-- Committing again the result that was just committed changes nothing. -/
theorem State.endWithResult_settled (s : State) (out : List Byte) (lcs : Nat) (sz : CwSize) (count : Nat) :
    (s.endWithResult out lcs sz count).endWithResult out lcs sz count = s.endWithResult out lcs sz count := by
  simp only [State.endWithResult, Memory.writeBytes_settled]

/-- A completed command leaves its own operation as it was, since it keeps every input. -/
theorem operationOf_of_exec (h : exec i s = .next t) : operationOf i t = operationOf i s := by
  have hframe := exec_operationFrame h
  exact operationOf_congr i hframe.caps hframe.ilen fun _ _ => by rw [hframe.ibuf]

/-- Settles O36: the repeated operation has the same result or error, and committing it again changes nothing. -/
theorem repeatEndsTheSame : Obligations.RepeatEndsTheSame := by
  unfold Obligations.RepeatEndsTheSame
  intro i s t h
  rw [exec_eq_complete, operationOf_of_exec h]
  rcases exec_next i s t h with ⟨out, lcs, sz, count, hr, rfl⟩ | ⟨e, hr, rfl⟩
  · rw [hr]
    exact congrArg _ (s.endWithResult_settled out lcs sz count)
  · rw [hr]
    rfl

end Sys2Proof.Machine
end

section
/-! SUPPORT. When START is refused and when a step stops: the bytes an operation reads, and the three answers of a step
(spec/70_reset_and_hazards.md R250, R253). -/

namespace Sys2Proof.Machine

variable {s : State} {a : Nat}

/-- ENC reads its input exactly when its tests pass, and stops at the first unwritten byte (spec/43_encoder.md R168). -/
theorem encOp_eq_error {caps : Capacities} {n : Byte} {ilen : Nat} {ibuf : Memory} :
    encOp caps n ilen ibuf = .error a ↔
      (∃ sz, encTests caps n ilen = .ok sz) ∧ ibuf.readBytes 0 ilen = .error a := by
  rcases encOp_cases caps n ilen ibuf with ⟨e, ht, hr⟩ | ⟨sz, b, ht, hb, hr⟩ | ⟨sz, x, ht, hx, hr⟩
  · simp [ht, hr]
  · simp [ht, hb, hr]
  · simp [ht, hx, hr]

/-- DEC reads its input exactly when ILEN is within IBUF, and stops at the first unwritten byte
(spec/44_decoder.md R190). -/
theorem decOp_eq_error {caps : Capacities} {fix : Bool} {ilen : Nat} {ibuf : Memory} :
    decOp caps fix ilen ibuf = .error a ↔ ilen ≤ caps.ibufBytes ∧ ibuf.readBytes 0 ilen = .error a := by
  rcases decOp_cases caps fix ilen ibuf with ⟨hlong, hr⟩ | ⟨b, hle, hb, hr⟩ | ⟨y, hle, hy, hr⟩
  · simp [hr, hlong]
  · simp [hle, hb, hr]
  · simp [hy, hr]

/-- The operation passes the tests that stand before its reads of IBUF (spec/43_encoder.md R168;
spec/44_decoder.md R190; log entry 6). -/
def State.ReadsInput (s : State) : Prop :=
  s.ilen.toNat ≤ s.caps.ibufBytes ∧
    (s.cmd.op = true ∨ ∃ sz, s.cmd.n = CwSize.toByte sz ∧ encLength sz s.ilen.toNat ≤ s.caps.obufBytes)

/-- The unwritten byte an operation reads is the first of its input, if it reads its input at all. -/
theorem State.unwrittenInput_eq_some :
    s.unwrittenInput = some a ↔ s.ReadsInput ∧ s.ibuf.readBytes 0 s.ilen.toNat = .error a := by
  have herror : s.unwrittenInput = some a ↔ s.operation = .error a := by
    unfold State.unwrittenInput
    cases s.operation <;> simp
  rw [herror, State.operation, State.ReadsInput]
  cases s.cmd.op with
  | true => simp [decOp_eq_error]
  | false =>
    simp [encOp_eq_error, encTests_ok, and_left_comm]

/-- A range with an unwritten byte is not read. -/
theorem Memory.exists_readBytes_error {m : Memory} {len : Nat} (h : ∃ b < len, m.read b = none) :
    ∃ a, m.readBytes 0 len = .error a := by
  obtain ⟨b, hb, hnone⟩ := h
  cases hr : m.readBytes 0 len with
  | error a => exact ⟨a, rfl⟩
  | ok x =>
    obtain ⟨hlen, hread⟩ := (Memory.readBytes_ok ..).1 hr
    have hx := hread b hb
    rw [Nat.zero_add, hnone, eq_comm, List.getElem?_eq_none_iff] at hx
    omega

/-- A START of an operation that reads no unwritten byte begins it (spec/10_state.md R40). -/
theorem step_start_begins {v : Word} {rest : List Event} (hp : s.phase = .idle)
    (he : s.events = .host (.writeReg 0 v) :: rest) (hv : v.getLsbD 0 = true) (hu : s.unwrittenInput = none) :
    step s = .next { s with phase := .busy, done := false, err := 0, events := rest, draws := s.draws + 1 } := by
  rw [step_host_idle hp he, hostIdle_start hv]
  exact startStep_next hu

/-- A START step whose operation reads an unwritten byte is refused (spec/70_reset_and_hazards.md R253). -/
theorem startStep_refused (hu : s.unwrittenInput = some a) : startStep s = .refused (.unwrittenInput a) := by
  rw [startStep, hu]

/-- A START, taken by an IDLE block, of an operation that reads an unwritten byte is refused. -/
theorem step_start_refused {v : Word} {rest : List Event} (hp : s.phase = .idle)
    (he : s.events = .host (.writeReg 0 v) :: rest) (hv : v.getLsbD 0 = true) (hu : s.unwrittenInput = some a) :
    step s = .refused (.unwrittenInput a) := by
  rw [step_host_idle hp he, hostIdle_start hv]
  exact startStep_refused hu

/-- Settles O7: the byte START is refused for is the first that the read of the input does not find. -/
theorem startRefusedOnUnwrittenInput : Obligations.StartRefusedOnUnwrittenInput := by
  unfold Obligations.StartRefusedOnUnwrittenInput
  intro s v rest reads hp he hv (hreads : reads ↔ s.ReadsInput)
  rw [hreads]
  refine ⟨fun hr hunwritten => ?_, fun hother => step_start_begins hp he hv ?_⟩
  · obtain ⟨a, ha⟩ := Memory.exists_readBytes_error hunwritten
    obtain ⟨-, hlt, hnone, hfirst⟩ := Memory.readBytes_error _ _ _ _ ha
    exact ⟨a, by omega, hnone, fun b => hfirst b (Nat.zero_le b),
      step_start_refused hp he hv (State.unwrittenInput_eq_some.2 ⟨hr, ha⟩)⟩
  · rcases hother with hnot | hwritten
    · exact Option.eq_none_iff_forall_ne_some.2 fun a ha => hnot (State.unwrittenInput_eq_some.1 ha).1
    · exact State.unwrittenInput_of_written hwritten

/-- COMPLETE answers a next state, or faults on the unwritten byte the operation reads (spec/10_state.md R41). -/
theorem State.complete_cases (s : State) (r : Except Nat OpResult) :
    (∃ t, s.complete r = .next t) ∨ ∃ a, r = .error a ∧ s.complete r = .fault (.unwrittenRead a) := by
  rcases r with a | ⟨out, lcs, sz, count⟩ | e
  · exact .inr ⟨a, rfl, rfl⟩
  · exact .inl ⟨_, rfl⟩
  · exact .inl ⟨_, rfl⟩

/-- A host access to an IDLE block answers a next state, or is a START refused for an unwritten byte
(spec/10_state.md R37). -/
theorem hostIdle_cases (a : HostAccess) (s : State) :
    (∃ t, hostIdle a s = .next t) ∨
    ∃ v b, a = .writeReg 0 v ∧ v.getLsbD 0 = true ∧ s.tick.unwrittenInput = some b ∧
      hostIdle a s = .refused (.unwrittenInput b) := by
  cases a with
  | writeReg i v =>
    match i with
    | 0 =>
      cases hv : v.getLsbD 0 with
      | false => exact .inl ⟨_, hostIdle_ctrl_clear hv s⟩
      | true =>
        rw [hostIdle_start hv]
        rcases startStep_cases s.tick with ⟨-, hs⟩ | ⟨b, hu, hs⟩
        · exact .inl ⟨_, hs⟩
        · exact .inr ⟨v, b, rfl, hv, hu, hs⟩
    | 1 | 2 => exact .inl ⟨_, rfl⟩
    | i + 3 => exact .inl ⟨_, hostIdle_writeReg_ignored (Nat.le_add_left 3 i) v s⟩
  | readReg | writeIbuf | readIbuf | writeObuf | readObuf => exact .inl ⟨_, rfl⟩

/-- The sequencer's turn answers a next state, or is the COMPLETE of a BUSY block that faults on an unwritten byte. -/
theorem step_sequencer_cases {rest : List Event} (he : s.events = .sequencer :: rest ∨ (s.events = [] ∧ rest = [])) :
    (∃ t, step s = .next t) ∨
    ∃ a, s.phase = .busy ∧ s.operation = .error a ∧ step s = .fault (.unwrittenRead a) := by
  cases hp : s.phase with
  | idle => exact .inl ⟨_, step_sequencer_idle hp he⟩
  | busy =>
    rw [step_complete hp he]
    exact (State.complete_cases _ _).imp id fun ⟨a, hr, hs⟩ => ⟨a, rfl, hr, hs⟩

/-- The host's turn answers a next state, or is a START of an IDLE block refused for an unwritten byte. -/
theorem step_host_cases {h : HostAccess} {rest : List Event} (he : s.events = .host h :: rest) :
    (∃ t, step s = .next t) ∨
    ∃ v a, s.phase = .idle ∧ h = .writeReg 0 v ∧ v.getLsbD 0 = true ∧ s.unwrittenInput = some a ∧
      step s = .refused (.unwrittenInput a) := by
  cases hp : s.phase with
  | idle =>
    rw [step_host_idle hp he]
    exact (hostIdle_cases h { s with events := rest }).imp id fun ⟨v, a, hh, hv, hu, hs⟩ => ⟨v, a, rfl, hh, hv, hu, hs⟩
  | busy => exact .inl ⟨_, step_host_busy hp he⟩

/-- What a step can answer: a next state, the fault of a BUSY block that reads an unwritten byte, or the refusal of a
START that would lead there (spec/10_state.md R36 to R41; spec/70_reset_and_hazards.md R253). -/
theorem step_cases (s : State) :
    (∃ t, step s = .next t) ∨
    (∃ a, s.phase = .busy ∧ s.operation = .error a ∧ step s = .fault (.unwrittenRead a)) ∨
    (∃ a v rest, s.phase = .idle ∧ s.events = .host (.writeReg 0 v) :: rest ∧ v.getLsbD 0 = true ∧
      s.unwrittenInput = some a ∧ step s = .refused (.unwrittenInput a)) := by
  match he : s.events with
  | [] => exact (step_sequencer_cases (.inr ⟨he, rfl⟩)).imp id .inl
  | .sequencer :: rest => exact (step_sequencer_cases (.inl he)).imp id .inl
  | .host h :: rest =>
    refine (step_host_cases he).imp id fun ⟨v, a, hp, hh, hv, hu, hs⟩ => .inr ⟨a, v, rest, hp, ?_, hv, hu, hs⟩
    rw [hh]
  | .reset :: rest => exact .inl ⟨_, step_reset he⟩

/-- Settles O19: the invariant rules out a fault, and a refusal names a byte of the input. -/
theorem goodStateNeverFaults : Obligations.GoodStateNeverFaults := by
  unfold Obligations.GoodStateNeverFaults
  intro s hinv
  rcases step_cases s with ⟨t, hs⟩ | ⟨a, hp, hop, -⟩ | ⟨a, v, rest, hp, he, hv, hu, hs⟩
  · simp [hs]
  · have hbusy : s.busy = true := by simp [State.busy, hp]
    obtain ⟨r, hr⟩ := s.unwrittenInput_eq_none.1 (hinv.input_written hbusy)
    simp [hop] at hr
  · obtain ⟨-, ha⟩ := State.unwrittenInput_eq_some.1 hu
    obtain ⟨-, hlt, hnone, -⟩ := Memory.readBytes_error _ _ _ _ ha
    rw [hs]
    refine ⟨fun f => nofun, fun r hr => ?_⟩
    cases hr
    exact ⟨hp, a, v, rest, rfl, he, hv, by omega, hnone⟩

/-- Settles O10: each of the three writes moves the draw counter only. -/
theorem busyWritesDropped : Obligations.BusyWritesDropped := by
  unfold Obligations.BusyWritesDropped
  rintro s a rest hp he (⟨i, v, rfl⟩ | ⟨off, v, rfl⟩ | ⟨off, v, rfl⟩)
  · exact step_host_busy hp he
  · exact step_host_busy hp he
  · exact step_host_busy hp he

end Sys2Proof.Machine
end

section
/-! SUPPORT. A flipped bit in the header of an accepted file (spec/44_decoder.md R181, R182;
spec/70_reset_and_hazards.md R255). -/

namespace Sys2Proof.Machine

variable {y : List Byte} {b i : Nat}

/-- One flipped bit makes another byte. -/
theorem xor_oneBit_ne (v : Byte) (hi : i < 8) : v ^^^ (1 <<< i) ≠ v := by
  have hmask : ∀ j < 8, ((1 <<< j : Nat) : Byte) ≠ 0 := by decide
  exact fun h => hmask i hi (by simpa using h)

/-- A supported size is a power of two, so a flipped bit makes it 0 or sets a second bit (spec/44_decoder.md R182). -/
theorem supportedN_toByte_xor_oneBit (sz : CwSize) : ∀ i < 8, supportedN (sz.toByte ^^^ (1 <<< i)) = false := by
  cases sz <;> decide

/-- A change of a byte changes every list that starts with it. -/
theorem take_modify_ne {n : Nat} {f : Byte → Byte} (hf : ∀ v, f v ≠ v) (hn : b < n) (hb : b < y.length) :
    (y.modify b f).take n ≠ y.take n := fun h => by
  have hbyte := congrArg (·[b]?) h
  simp [List.getElem?_take_of_lt hn, List.getElem?_eq_getElem hb, hf] at hbyte

/-- Settles O55: a flip below byte 7 breaks the magic, and one in byte 8 leaves the magic but no supported size. -/
theorem headerFlipsRejected : Obligations.HeaderFlipsRejected := by
  unfold Obligations.HeaderFlipsRejected
  intro fix y r b i h hi
  obtain ⟨h9, hmagic, hn, -⟩ := decodeFile_ok fix y r h
  rw [headerBytes] at h9
  refine ⟨fun hb => decodeFile_malformed fix (.inr ?_), ?_⟩
  · exact hmagic ▸ take_modify_ne (fun v => xor_oneBit_ne v hi) hb (by omega)
  · rintro rfl
    have hN : headerN (y.modify 8 (· ^^^ (1 <<< i))) = r.size.toByte ^^^ (1 <<< i) := by
      rw [← hn]
      simp [headerN, List.getD_eq_getElem?_getD, List.getElem?_eq_getElem (show 8 < y.length from h9)]
    refine decodeFile_unsupported fix (by rwa [List.length_modify]) ?_ (hN ▸ supportedN_toByte_xor_oneBit r.size i hi)
    rw [List.take_modify, List.modify_eq_self (by rw [hmagic]; decide), hmagic]

end Sys2Proof.Machine
end
